-- ==== Sys2Proof/Word.lean ====
section
/-! DEFINITION. The word types of the machine (00_scope.md R6, R8): every value is an unsigned bit vector of a fixed
width, and widening is always with zero bits. -/

namespace Sys2Proof

/-- A byte: a general register, a timer, one cell of memory, the immediate `nn`. -/
abbrev Byte := BitVec 8

/-- A 16-bit word: an instruction word, PC, I, a stack entry, the keyboard mask. -/
abbrev Word := BitVec 16

/-- The 12-bit address field `nnn`. -/
abbrev Addr12 := BitVec 12

/-- A 4-bit field of an instruction word (R72). -/
abbrev Nibble := BitVec 4

/-- A 4-bit register number; every value 0..15 names a register (R21, R74). -/
abbrev Reg := BitVec 4

/-- `VF`, the flag register (R22). -/
abbrev vf : Reg := 15#4

end Sys2Proof
end

