-- ==== Sys2Proof/Config.lean ====
section
/-! DEFINITION. What is fixed for one machine: the parameters the source leaves open (00_scope.md R7) with their
defaults, and the free inputs of a step, which nothing constrains (R7, 10_state.md R33). -/

namespace Sys2Proof

/-- `VF_DEST_ORDER` (R7, R132): which write is the later one when an ALU operation's destination is VF itself. -/
inductive VfDestOrder where
  /-- The flag first, then the result: VF ends holding the result. -/
  | resultLast
  /-- The result first, then the flag: VF ends holding the flag. -/
  | flagLast
  deriving DecidableEq, Repr

/-- `SOUND_TICK_MODE` (R7, R193): what decrements the sound timer. -/
inductive SoundTickMode where
  /-- The core, on the ticks that decrement DT. -/
  | core
  /-- Only the host operation `soundTick()`. -/
  | external
  deriving DecidableEq, Repr

/-- The open parameters of R7. A claim about every state is a claim for every value of them, since State carries one
(log 1). -/
structure Config where
  /-- `STACK_DEPTH`: `none` is `unbounded` (D5). -/
  stackDepth : Option Nat
  /-- `FONT`: the 80 bytes at addresses 0..79 (D25). -/
  font : Vector Byte 80
  /-- `VF_DEST_ORDER` (D9). -/
  vfDestOrder : VfDestOrder
  /-- `STRICT_LOW_NIBBLE` (D13). -/
  strictLowNibble : Bool
  /-- `SOUND_TICK_MODE` (D7). -/
  soundTickMode : SoundTickMode
  deriving DecidableEq, Repr

/-- Glyphs 0 to 7 of the default font (93_implementation_defined.md G4).
UNVERIFIED (log 8): the source gives no bytes. -/
def Config.fontLow : Vector Byte 40 :=
  #v[0xF0, 0x90, 0x90, 0x90, 0xF0, 0x20, 0x60, 0x20, 0x20, 0x70,
     0xF0, 0x10, 0xF0, 0x80, 0xF0, 0xF0, 0x10, 0xF0, 0x10, 0xF0,
     0x90, 0x90, 0xF0, 0x10, 0x10, 0xF0, 0x80, 0xF0, 0x10, 0xF0,
     0xF0, 0x80, 0xF0, 0x90, 0xF0, 0xF0, 0x10, 0x20, 0x40, 0x40]

/-- Glyphs 8 to F of the default font (93_implementation_defined.md G4). UNVERIFIED (log 8). -/
def Config.fontHigh : Vector Byte 40 :=
  #v[0xF0, 0x90, 0xF0, 0x90, 0xF0, 0xF0, 0x90, 0xF0, 0x10, 0xF0,
     0xF0, 0x90, 0xF0, 0x90, 0x90, 0xE0, 0x90, 0xE0, 0x90, 0xE0,
     0xF0, 0x80, 0x80, 0x80, 0xF0, 0xE0, 0x90, 0x90, 0x90, 0xE0,
     0xF0, 0x80, 0xF0, 0x80, 0xF0, 0xF0, 0x80, 0xF0, 0x80, 0x80]

/-- The defaults of R7 (logs 4 to 8). -/
def Config.default : Config where
  stackDepth := none
  font := Config.fontLow ++ Config.fontHigh
  vfDestOrder := .resultLast
  strictLowNibble := true
  soundTickMode := .core

/-- The free input `tick` of step number `k` (R102, D6): at least 1/60 s of host time has elapsed. A free value
(log 2): it has no body, so no proof can see what it is. -/
opaque Config.drawTick : Nat → Bool

/-- The free input `rnd` of step number `k` (R142, D17). A free value (log 2). -/
opaque Config.drawByte : Nat → Byte

/-- The free boolean `draw_bool()` of step number `k`, taken for a key index above 15 (R167, D14). A free value
(log 2). -/
opaque Config.drawBool : Nat → Bool

end Sys2Proof
end

