-- ==== Sys2Proof/Syntax.lean ====
section
/-! DEFINITION. The 34 instructions (30_encoding.md R83), one constructor per row of spec/opcode_table.json, in the order
of the table. Operands are the fields of R72. Two pairs carry a field the instruction does not use, so that no bit of a
word is lost in decoding: `y` of the shifts, which is ignored (R139, R141), and the low nibble `n` of `5xyN` and `9xyN`,
which only `STRICT_LOW_NIBBLE = false` lets be other than 0 (R80). See log 27. -/

namespace Sys2Proof

/-- An instruction (R83). -/
inductive Instr where
  /-- `00E0`, clear-screen (R150). -/
  | cls
  /-- `00EE`, return (R120). -/
  | ret
  /-- `1nnn`, jump (R121). -/
  | jp (nnn : Addr12)
  /-- `2nnn`, call (R122). -/
  | call (nnn : Addr12)
  /-- `3xnn`, skip-eq (R123). -/
  | seImm (x : Reg) (nn : Byte)
  /-- `4xnn`, skip-neq (R124). -/
  | sneImm (x : Reg) (nn : Byte)
  /-- `5xyN`, skip-req (R125); `n` is the low nibble, 0 under the strict decoder (R80). -/
  | seReg (x y : Reg) (n : Nibble)
  /-- `6xnn`, load-imm (R130). -/
  | ldImm (x : Reg) (nn : Byte)
  /-- `7xnn`, add-imm (R131). -/
  | addImm (x : Reg) (nn : Byte)
  /-- `8xy0`, assign (R133). -/
  | ldReg (x y : Reg)
  /-- `8xy1`, or (R134). -/
  | orReg (x y : Reg)
  /-- `8xy2`, and (R135). -/
  | andReg (x y : Reg)
  /-- `8xy3`, xor (R136). -/
  | xorReg (x y : Reg)
  /-- `8xy4`, add-with-carry (R137). -/
  | addReg (x y : Reg)
  /-- `8xy5`, sub-with-borrow (R138). -/
  | sub (x y : Reg)
  /-- `8xy6`, shift-right-with-carry-out (R139); `y` is ignored. -/
  | shr (x y : Reg)
  /-- `8xy7`, reverse-sub-with-borrow (R140). -/
  | subn (x y : Reg)
  /-- `8xyE`, shift-left-with-carry-out (R141); `y` is ignored. -/
  | shl (x y : Reg)
  /-- `9xyN`, skip-rneq (R126); `n` is the low nibble, 0 under the strict decoder (R80). -/
  | sneReg (x y : Reg) (n : Nibble)
  /-- `Annn`, load-index (R170). -/
  | ldI (nnn : Addr12)
  /-- `Bnnn`, jump-offset (R127). -/
  | jpV0 (nnn : Addr12)
  /-- `Cxnn`, random (R142). -/
  | rnd (x : Reg) (nn : Byte)
  /-- `Dxyn`, draw (R151). -/
  | drw (x y : Reg) (n : Nibble)
  /-- `Ex9E`, key-down (R160). -/
  | skp (x : Reg)
  /-- `ExA1`, key-up (R161). -/
  | sknp (x : Reg)
  /-- `Fx07`, read-delay (R162). -/
  | ldVxDt (x : Reg)
  /-- `Fx0A`, wait-key (R163). -/
  | ldVxK (x : Reg)
  /-- `Fx15`, write-delay (R164). -/
  | ldDtVx (x : Reg)
  /-- `Fx18`, write-sound (R165). -/
  | ldStVx (x : Reg)
  /-- `Fx1E`, add-index (R171). -/
  | addI (x : Reg)
  /-- `Fx29`, font-addr (R172). -/
  | ldF (x : Reg)
  /-- `Fx33`, bcd (R173). -/
  | ldB (x : Reg)
  /-- `Fx55`, store-regs (R174). -/
  | ldMemStore (x : Reg)
  /-- `Fx65`, load-regs (R175). -/
  | ldMemLoad (x : Reg)
  deriving DecidableEq, Repr

end Sys2Proof
end

