-- ==== Sys2Proof/WellFormed.lean ====
section
/-! DEFINITION. What makes a term of Instr, and a program image, one the machine can be given. The widths of the operands
are in their types, so a register number above 15 or an address above 0xFFF cannot be written; what is left to check is
the low nibble of `5xyN` and `9xyN` (30_encoding.md R80) and the size of a program (60_exceptions.md R187). -/

namespace Sys2Proof

/-- An instruction has an encoding under `STRICT_LOW_NIBBLE = strict`: the strict decoder takes `5xyN` and `9xyN` only
with `N = 0`, the lax one with every `N` (R80). -/
def Instr.wellFormed (strict : Bool) : Instr → Bool
  | .seReg _ _ n | .sneReg _ _ n => !strict || n == 0#4
  | .cls | .ret | .jp _ | .call _ | .seImm _ _ | .sneImm _ _ | .ldImm _ _ | .addImm _ _ | .ldReg _ _ | .orReg _ _
  | .andReg _ _ | .xorReg _ _ | .addReg _ _ | .sub _ _ | .shr _ _ | .subn _ _ | .shl _ _ | .ldI _ | .jpV0 _ | .rnd _ _
  | .drw _ _ _ | .skp _ | .sknp _ | .ldVxDt _ | .ldVxK _ | .ldDtVx _ | .ldStVx _ | .addI _ | .ldF _ | .ldB _
  | .ldMemStore _ | .ldMemLoad _ => true

/-- `MAX_PROGRAM` (R6): 4096 - 512 bytes. -/
def maxProgram : Nat := 3584

/-- A program `load` accepts (R187, R200). -/
def programFits (program : List Byte) : Bool := program.length ≤ maxProgram

end Sys2Proof
end

