-- ==== Sys2Proof/Decode.lean ====
section
/-! DEFINITION. The decoder (30_encoding.md R70 to R84), total on every two bytes, and after it the encoder, written
from the format table R73, and the opcode table R83 as data. Every opcode value is the standard CHIP-8 map, which the
source does not give. UNVERIFIED (log 9). -/

namespace Sys2Proof

/-! ## Fields of an instruction word (R72) -/

/-- `op = w[15:12]`. -/
def opOf (w : Word) : Nibble := w.extractLsb' 12 4

/-- `x = w[11:8]`. -/
def xOf (w : Word) : Reg := w.extractLsb' 8 4

/-- `y = w[7:4]`. -/
def yOf (w : Word) : Reg := w.extractLsb' 4 4

/-- `n = w[3:0]`. -/
def nOf (w : Word) : Nibble := w.extractLsb' 0 4

/-- `nn = w[7:0]`. -/
def nnOf (w : Word) : Byte := w.extractLsb' 0 8

/-- `nnn = w[11:0]`. -/
def nnnOf (w : Word) : Addr12 := w.extractLsb' 0 12

/-! ## The decoder -/

/-- What the decoder answers (R75): an instruction, or `Unsupported(w)` with the offending word. -/
inductive Decoded where
  | instr (i : Instr)
  | unsupported (w : Word)
  deriving DecidableEq, Repr

/-- Op 0 (R76): the whole word is compared. -/
def decodeOp0 (w : Word) : Decoded :=
  if w = 0x00E0#16 then .instr .cls
  else if w = 0x00EE#16 then .instr .ret
  else .unsupported w

/-- Ops 5 and 9 (R80): under `STRICT_LOW_NIBBLE = true` the low nibble must be 0. -/
def decodeRegSkip (strict : Bool) (make : Reg → Reg → Nibble → Instr) (w : Word) : Decoded :=
  if strict && nOf w != 0#4 then .unsupported w else .instr (make (xOf w) (yOf w) (nOf w))

/-- Op 8 (R77), on the low nibble. -/
def decodeOp8 (w : Word) : Decoded :=
  match (nOf w).toNat with
  | 0x0 => .instr (.ldReg (xOf w) (yOf w))
  | 0x1 => .instr (.orReg (xOf w) (yOf w))
  | 0x2 => .instr (.andReg (xOf w) (yOf w))
  | 0x3 => .instr (.xorReg (xOf w) (yOf w))
  | 0x4 => .instr (.addReg (xOf w) (yOf w))
  | 0x5 => .instr (.sub (xOf w) (yOf w))
  | 0x6 => .instr (.shr (xOf w) (yOf w))
  | 0x7 => .instr (.subn (xOf w) (yOf w))
  | 0xE => .instr (.shl (xOf w) (yOf w))
  | _ => .unsupported w

/-- Op E (R78), on the low byte. -/
def decodeOpE (w : Word) : Decoded :=
  if nnOf w = 0x9E#8 then .instr (.skp (xOf w))
  else if nnOf w = 0xA1#8 then .instr (.sknp (xOf w))
  else .unsupported w

/-- Op F (R79), on the low byte. -/
def decodeOpF (w : Word) : Decoded :=
  if nnOf w = 0x07#8 then .instr (.ldVxDt (xOf w))
  else if nnOf w = 0x0A#8 then .instr (.ldVxK (xOf w))
  else if nnOf w = 0x15#8 then .instr (.ldDtVx (xOf w))
  else if nnOf w = 0x18#8 then .instr (.ldStVx (xOf w))
  else if nnOf w = 0x1E#8 then .instr (.addI (xOf w))
  else if nnOf w = 0x29#8 then .instr (.ldF (xOf w))
  else if nnOf w = 0x33#8 then .instr (.ldB (xOf w))
  else if nnOf w = 0x55#8 then .instr (.ldMemStore (xOf w))
  else if nnOf w = 0x65#8 then .instr (.ldMemLoad (xOf w))
  else .unsupported w

/-- The primary decoder (R75): a 16-way branch on the top nibble. `strict` is `STRICT_LOW_NIBBLE`. It reads nothing but
the word (R82). The last arm is never reached: a nibble is below 16. -/
def decode (strict : Bool) (w : Word) : Decoded :=
  match (opOf w).toNat with
  | 0x0 => decodeOp0 w
  | 0x1 => .instr (.jp (nnnOf w))
  | 0x2 => .instr (.call (nnnOf w))
  | 0x3 => .instr (.seImm (xOf w) (nnOf w))
  | 0x4 => .instr (.sneImm (xOf w) (nnOf w))
  | 0x5 => decodeRegSkip strict .seReg w
  | 0x6 => .instr (.ldImm (xOf w) (nnOf w))
  | 0x7 => .instr (.addImm (xOf w) (nnOf w))
  | 0x8 => decodeOp8 w
  | 0x9 => decodeRegSkip strict .sneReg w
  | 0xA => .instr (.ldI (nnnOf w))
  | 0xB => .instr (.jpV0 (nnnOf w))
  | 0xC => .instr (.rnd (xOf w) (nnOf w))
  | 0xD => .instr (.drw (xOf w) (yOf w) (nOf w))
  | 0xE => decodeOpE w
  | 0xF => decodeOpF w
  | _ => .unsupported w

/-- The instruction word of the two bytes at PC and PC + 1 (R52, R71): the byte at the lower address is the high one. -/
def wordOfBytes (hi lo : Byte) : Word := hi ++ lo

/-- The decoder on two bytes as memory holds them. -/
def decodeBytes (strict : Bool) (hi lo : Byte) : Decoded := decode strict (wordOfBytes hi lo)

/-- The high byte of a word, which memory holds at the lower address (R52). -/
def highByte (w : Word) : Byte := w.extractLsb' 8 8

/-- The low byte of a word, which memory holds at the higher address (R52). -/
def lowByte (w : Word) : Byte := w.extractLsb' 0 8

/-- The word of a row of spec/opcode_table.json: the lowest `nbits` bits of `w`, every bit above them 0. -/
def tableWord (nbits w : Nat) : Word := BitVec.ofNat 16 (w % 2 ^ nbits)

/-- The instruction the decoder reads from a row's word, laid out in memory order, under the default
`STRICT_LOW_NIBBLE`. -/
def decodeTableWord (nbits w : Nat) : Option Instr :=
  match decodeBytes Config.default.strictLowNibble (highByte (tableWord nbits w)) (lowByte (tableWord nbits w)) with
  | .instr i => some i
  | .unsupported _ => none

/-! ## The encoder (R73) -/

/-- Format FA: `oooo aaaa aaaa aaaa`. -/
def formatFA (op : Nibble) (nnn : Addr12) : Word := op ++ nnn

/-- Format FXK: `oooo xxxx kkkk kkkk`. Format FXS is the same shape with `nn` a sub-op. -/
def formatFXK (op : Nibble) (x : Reg) (nn : Byte) : Word := op ++ x ++ nn

/-- Formats FXY and FXYN: `oooo xxxx yyyy nnnn`. -/
def formatFXYN (op : Nibble) (x y : Reg) (n : Nibble) : Word := op ++ x ++ y ++ n

/-- The word of an instruction (R73, R83). -/
def encode : Instr → Word
  | .cls => 0x00E0#16
  | .ret => 0x00EE#16
  | .jp nnn => formatFA 0x1#4 nnn
  | .call nnn => formatFA 0x2#4 nnn
  | .seImm x nn => formatFXK 0x3#4 x nn
  | .sneImm x nn => formatFXK 0x4#4 x nn
  | .seReg x y n => formatFXYN 0x5#4 x y n
  | .ldImm x nn => formatFXK 0x6#4 x nn
  | .addImm x nn => formatFXK 0x7#4 x nn
  | .ldReg x y => formatFXYN 0x8#4 x y 0x0#4
  | .orReg x y => formatFXYN 0x8#4 x y 0x1#4
  | .andReg x y => formatFXYN 0x8#4 x y 0x2#4
  | .xorReg x y => formatFXYN 0x8#4 x y 0x3#4
  | .addReg x y => formatFXYN 0x8#4 x y 0x4#4
  | .sub x y => formatFXYN 0x8#4 x y 0x5#4
  | .shr x y => formatFXYN 0x8#4 x y 0x6#4
  | .subn x y => formatFXYN 0x8#4 x y 0x7#4
  | .shl x y => formatFXYN 0x8#4 x y 0xE#4
  | .sneReg x y n => formatFXYN 0x9#4 x y n
  | .ldI nnn => formatFA 0xA#4 nnn
  | .jpV0 nnn => formatFA 0xB#4 nnn
  | .rnd x nn => formatFXK 0xC#4 x nn
  | .drw x y n => formatFXYN 0xD#4 x y n
  | .skp x => formatFXK 0xE#4 x 0x9E#8
  | .sknp x => formatFXK 0xE#4 x 0xA1#8
  | .ldVxDt x => formatFXK 0xF#4 x 0x07#8
  | .ldVxK x => formatFXK 0xF#4 x 0x0A#8
  | .ldDtVx x => formatFXK 0xF#4 x 0x15#8
  | .ldStVx x => formatFXK 0xF#4 x 0x18#8
  | .addI x => formatFXK 0xF#4 x 0x1E#8
  | .ldF x => formatFXK 0xF#4 x 0x29#8
  | .ldB x => formatFXK 0xF#4 x 0x33#8
  | .ldMemStore x => formatFXK 0xF#4 x 0x55#8
  | .ldMemLoad x => formatFXK 0xF#4 x 0x65#8

/-! ## The opcode table as data (R83; spec/opcode_table.json) -/

/-- One row: a word is the row's when its bits under `mask` are `pattern`. -/
structure OpcodeRow where
  mnemonic : String
  pattern : Word
  mask : Word
  deriving DecidableEq, Repr

/-- The word is one of the row's. -/
def OpcodeRow.covers (r : OpcodeRow) (w : Word) : Bool := w &&& r.mask == r.pattern

/-- The mask of `5xyN` and `9xyN`: `0xF000` when the low nibble is not checked (the notes of those rows, R80). -/
def regSkipMask (strict : Bool) : Word := if strict then 0xF00F#16 else 0xF000#16

/-- The rows of op 0 to 7. -/
def opcodeRowsLow (strict : Bool) : List OpcodeRow :=
  [⟨"CLS", 0x00E0#16, 0xFFFF#16⟩, ⟨"RET", 0x00EE#16, 0xFFFF#16⟩, ⟨"JP", 0x1000#16, 0xF000#16⟩,
   ⟨"CALL", 0x2000#16, 0xF000#16⟩, ⟨"SE_imm", 0x3000#16, 0xF000#16⟩, ⟨"SNE_imm", 0x4000#16, 0xF000#16⟩,
   ⟨"SE_reg", 0x5000#16, regSkipMask strict⟩, ⟨"LD_imm", 0x6000#16, 0xF000#16⟩, ⟨"ADD_imm", 0x7000#16, 0xF000#16⟩]

/-- The rows of op 8. -/
def opcodeRowsAlu : List OpcodeRow :=
  [⟨"LD_reg", 0x8000#16, 0xF00F#16⟩, ⟨"OR", 0x8001#16, 0xF00F#16⟩, ⟨"AND", 0x8002#16, 0xF00F#16⟩,
   ⟨"XOR", 0x8003#16, 0xF00F#16⟩, ⟨"ADD_reg", 0x8004#16, 0xF00F#16⟩, ⟨"SUB", 0x8005#16, 0xF00F#16⟩,
   ⟨"SHR", 0x8006#16, 0xF00F#16⟩, ⟨"SUBN", 0x8007#16, 0xF00F#16⟩, ⟨"SHL", 0x800E#16, 0xF00F#16⟩]

/-- The rows of op 9 to F. -/
def opcodeRowsHigh (strict : Bool) : List OpcodeRow :=
  [⟨"SNE_reg", 0x9000#16, regSkipMask strict⟩, ⟨"LD_I", 0xA000#16, 0xF000#16⟩, ⟨"JP_V0", 0xB000#16, 0xF000#16⟩,
   ⟨"RND", 0xC000#16, 0xF000#16⟩, ⟨"DRW", 0xD000#16, 0xF000#16⟩, ⟨"SKP", 0xE09E#16, 0xF0FF#16⟩,
   ⟨"SKNP", 0xE0A1#16, 0xF0FF#16⟩, ⟨"LD_Vx_DT", 0xF007#16, 0xF0FF#16⟩, ⟨"LD_Vx_K", 0xF00A#16, 0xF0FF#16⟩,
   ⟨"LD_DT_Vx", 0xF015#16, 0xF0FF#16⟩, ⟨"LD_ST_Vx", 0xF018#16, 0xF0FF#16⟩, ⟨"ADD_I", 0xF01E#16, 0xF0FF#16⟩,
   ⟨"LD_F", 0xF029#16, 0xF0FF#16⟩, ⟨"LD_B", 0xF033#16, 0xF0FF#16⟩, ⟨"LD_mem_store", 0xF055#16, 0xF0FF#16⟩,
   ⟨"LD_mem_load", 0xF065#16, 0xF0FF#16⟩]

/-- The 34 rows. -/
def opcodeTable (strict : Bool) : List OpcodeRow := opcodeRowsLow strict ++ opcodeRowsAlu ++ opcodeRowsHigh strict

/-- The row of an instruction, by its mnemonic in the table. -/
def mnemonicOf : Instr → String
  | .cls => "CLS"
  | .ret => "RET"
  | .jp _ => "JP"
  | .call _ => "CALL"
  | .seImm _ _ => "SE_imm"
  | .sneImm _ _ => "SNE_imm"
  | .seReg _ _ _ => "SE_reg"
  | .ldImm _ _ => "LD_imm"
  | .addImm _ _ => "ADD_imm"
  | .ldReg _ _ => "LD_reg"
  | .orReg _ _ => "OR"
  | .andReg _ _ => "AND"
  | .xorReg _ _ => "XOR"
  | .addReg _ _ => "ADD_reg"
  | .sub _ _ => "SUB"
  | .shr _ _ => "SHR"
  | .subn _ _ => "SUBN"
  | .shl _ _ => "SHL"
  | .sneReg _ _ _ => "SNE_reg"
  | .ldI _ => "LD_I"
  | .jpV0 _ => "JP_V0"
  | .rnd _ _ => "RND"
  | .drw _ _ _ => "DRW"
  | .skp _ => "SKP"
  | .sknp _ => "SKNP"
  | .ldVxDt _ => "LD_Vx_DT"
  | .ldVxK _ => "LD_Vx_K"
  | .ldDtVx _ => "LD_DT_Vx"
  | .ldStVx _ => "LD_ST_Vx"
  | .addI _ => "ADD_I"
  | .ldF _ => "LD_F"
  | .ldB _ => "LD_B"
  | .ldMemStore _ => "LD_mem_store"
  | .ldMemLoad _ => "LD_mem_load"

end Sys2Proof
end

