-- ==== Sys2Proof/Machine/State.lean ====
section
/-! DEFINITION. The state of the CORE (10_state.md R20), its reset value (R38), and the reasons a step can answer
something other than a next state. State is plain data. -/

namespace Sys2Proof.Machine

/-- The preconditions of R181 codes 2 to 5: `PreconditionViolation(…)`. -/
inductive Precondition where
  /-- Code 2: `step()` called while awaiting a key (R183). -/
  | stepWhileAwaiting
  /-- Code 3: a return with an empty call stack (R184). -/
  | stackUnderflow
  /-- Code 4: `deliverKey(k)` called while running (R186). -/
  | deliverWhileRunning (key : Nat)
  /-- Code 5: `deliverKey(k)` with `k > 15` (R186). -/
  | keyOutOfRange (key : Nat)
  deriving DecidableEq, Repr

/-- A fault of the CORE with the information it records (60_exceptions.md R181). Raising one is a transition to
`Faulted(f)` (R180), so it is part of a next state, not an outcome of its own (log 3). -/
inductive CoreFault where
  /-- Code 1: the fetched word matches no instruction (R182). -/
  | unsupportedOpcode (word : Word)
  /-- Codes 2 to 5. -/
  | precondition (p : Precondition)
  /-- Code 6: a call on a full bounded stack (R185). -/
  | stackOverflow
  /-- Code 7: `load` of more than 3584 bytes (R187). -/
  | loadTooLarge (length : Nat)
  deriving DecidableEq, Repr

/-- `MODE` (R31). -/
inductive Mode where
  | running
  | awaitingKey
  | faulted (f : CoreFault)
  deriving DecidableEq, Repr

/-- `MEM` (R28): the listed bytes, addresses strictly rising and below 4096, none equal to what an unlisted address
reads as (`resetByte` in Ops.lean). -/
abbrev Memory := List Host.Cell

/-- `DISP` (R29): 2048 one-bit cells as 32 rows of 64; cell `k` is column `k mod 64` of row `k div 64`, and column `c` is
bit `c` of its row. -/
abbrev Display := Vector (BitVec 64) 32

/-- Every cell off. -/
def Display.blank : Display := Vector.replicate 32 0#64

/-- The state record (R20). -/
structure State where
  /-- The parameters of R7, "which the model takes as an argument"; no operation writes them (log 1). -/
  cfg : Config
  /-- `V[0..15]` (R21, R22). -/
  v : Vector Byte 16
  /-- `PC` (R23). -/
  pc : Word
  /-- `I` (R24). -/
  i : Word
  /-- `DT` (R25). -/
  dt : Byte
  /-- `ST` (R26). -/
  st : Byte
  /-- `STACK`, top at the head (R27). -/
  stack : List Word
  /-- `MEM` (R28). -/
  mem : Memory
  /-- `DISP` (R29). -/
  disp : Display
  /-- `KBD` (R30). -/
  kbd : Word
  /-- `MODE` (R31). -/
  mode : Mode
  /-- `WAIT_DST` (R32). -/
  waitDst : Reg
  /-- The MODEL's own field: which free inputs the next step takes (R33; log 2). -/
  draws : Nat
  deriving DecidableEq, Repr

/-- The state of a machine with parameters `cfg` right after the `load` of an empty program (R38): nothing of memory is
listed, since an unlisted address reads as the reset contents. `draws` is the model's own. -/
def State.fresh (cfg : Config) (draws : Nat) : State where
  cfg := cfg
  v := Vector.replicate 16 0#8
  pc := 512#16
  i := 0#16
  dt := 0#8
  st := 0#8
  stack := []
  mem := []
  disp := Display.blank
  kbd := 0#16
  mode := .running
  waitDst := 0#4
  draws := draws

/-- The machine right after reset (R38) with the default parameters (R7). The spec's only reset is `load(program)`
(R200); here the program is empty (log 12). `I`, `KBD` and `WAIT_DST` are 0 by D24 (log 11); `draws` is 0, a
DESIGN CHOICE (log 2). -/
def State.reset : State := State.fresh Config.default 0

/-- Why an operation answers no next state by a fault. -/
inductive Fault where
  /-- Raised by `step` and `deliverKey` when `MODE = Faulted(f)`: the operation "has no transition" until the next `load`
  (R100, R180; logs 3 and 14). Safe: the model stops. -/
  | stopped (f : CoreFault)
  /-- Raised by the first `load` of all when its program is too large (R187): the fault is `LoadTooLarge(length)`, and
  there is no defined state to keep (R201; log 13). Safe: the model stops. -/
  | firstLoadTooLarge (length : Nat)
  deriving DecidableEq, Repr

/-- Why an operation has no meaning. -/
inductive Refusal where
  /-- An instruction that has no meaning yet; no arm of exec answers it. Safe: the model stops. -/
  | notModelled (mnemonic : String)
  /-- Raised by every operation but `load` before the first `load`: the state is undefined and the operation has no
  transition and no value (R201, U13; log 13). Safe: the model stops. -/
  | beforeFirstLoad
  /-- Raised by `soundTick()` under `SOUND_TICK_MODE = core`, where the interface has no such operation (R195; log 15).
  Safe: the model stops. -/
  | noSoundTick
  deriving DecidableEq, Repr

/-- The outcome of an operation of this machine. -/
abbrev Outcome := Host.Outcome State Fault Refusal

end Sys2Proof.Machine
end

