-- ==== Sys2Proof/Machine/Ops.lean ====
section
/-! DEFINITION. The named operations over memory, registers, PC, the stack and the display, raising a fault, and what a
step does around an instruction (00_scope.md R9; 20_memory.md; 40_dispatch.md; 60_exceptions.md R180). -/

namespace Sys2Proof.Machine

/-! ## Memory (20_memory.md) -/

/-- What an unlisted address reads as: the reset contents of an empty load, `FONT` at 0..79 and 0 elsewhere
(R38, R55). -/
def resetByte (font : Vector Byte 80) (a : Nat) : Byte := if h : a < 80 then font[a] else 0#8

/-- The listed byte at an address, if any. -/
def Memory.lookup : Memory → Nat → Option Byte
  | [], _ => none
  | (k, b) :: m, a => if k = a then some b else Memory.lookup m a

/-- The byte at an address, over what unlisted addresses read as. -/
def Memory.read (base : Nat → Byte) (m : Memory) (a : Nat) : Byte := (Memory.lookup m a).getD (base a)

/-- List a byte, keeping the addresses rising. -/
def Memory.insert (a : Nat) (b : Byte) : Memory → Memory
  | [] => [(a, b)]
  | (k, c) :: m =>
    if a < k then (a, b) :: (k, c) :: m
    else if a = k then (a, b) :: m
    else (k, c) :: Memory.insert a b m

/-- Unlist an address. -/
def Memory.erase (a : Nat) : Memory → Memory
  | [] => []
  | (k, c) :: m => if k = a then Memory.erase a m else (k, c) :: Memory.erase a m

/-- Write a byte, keeping the canonical form: a byte equal to what an unlisted address reads as is not listed. -/
def Memory.write (base : Nat → Byte) (m : Memory) (a : Nat) (b : Byte) : Memory :=
  if b = base a then Memory.erase a m else Memory.insert a b m

/-- The canonical form: addresses below 4096 (R50) and strictly rising, no entry equal to what an unlisted address reads
as. -/
def Memory.wf (base : Nat → Byte) : Memory → Bool
  | [] => true
  | (k, c) :: m => decide (k < 4096) && c != base k && m.all (fun e => k < e.1) && Memory.wf base m

/-- `MEM_SIZE` (R6). -/
def memSize : Nat := 4096

/-- Address reduction (R51): modulo 4096, of the full sum. -/
def reduceAddr (a : Nat) : Nat := a % memSize

/-- `MemRead(a, 1)` (R9, R51). -/
def State.readByte (s : State) (a : Nat) : Byte := Memory.read (resetByte s.cfg.font) s.mem (reduceAddr a)

/-- `MemWrite(a, 1, b)` (R9, R51). -/
def State.writeByte (s : State) (a : Nat) (b : Byte) : State :=
  { s with mem := Memory.write (resetByte s.cfg.font) s.mem (reduceAddr a) b }

/-- `MemWrite` of consecutive bytes, from the lowest address on. -/
def State.writeBytes (s : State) (a : Nat) : List Byte → State
  | [] => s
  | b :: bs => State.writeBytes (s.writeByte a b) (a + 1) bs

/-- The fetch (R52, R103): the bytes at PC and PC + 1, each address reduced on its own, big-endian. -/
def State.fetchWord (s : State) : Word := wordOfBytes (s.readByte s.pc.toNat) (s.readByte (s.pc.toNat + 1))

/-- A word stored where the fetch of R103 reads it. -/
def State.writeFetchWord (s : State) (w : Word) : State := s.writeBytes s.pc.toNat [highByte w, lowByte w]

/-! ## Registers (R9, R21) -/

/-- `V[r]`. -/
def State.readV (s : State) (r : Reg) : Byte := s.v[r.toNat]'r.isLt

/-- `V[r] <- b`. -/
def State.writeV (s : State) (r : Reg) (b : Byte) : State := { s with v := s.v.set r.toNat b r.isLt }

/-- `V[0..n-1] <- MemRead(I + i, 1)`, lowest register first, as load-regs does (R175). -/
def State.loadRegs (s : State) : Nat → State
  | 0 => s
  | n + 1 => (s.loadRegs n).writeV (BitVec.ofNat 4 n) (s.readByte (s.i.toNat + n))

/-- `MemWrite(I + i, 1, V[i])` for `i` in `0..n-1`, lowest address first, as store-regs does (R174). -/
def State.storeRegs (s : State) (n : Nat) : State := s.writeBytes s.i.toNat (s.v.toList.take n)

/-! ## PC (R23, R104, R108, R128) -/

/-- The base advance (R104): `PC <- trunc_16(PC + 2)`. -/
def State.advancePc (s : State) : State := { s with pc := s.pc + 2#16 }

/-- `PC <- trunc_16(PC - 2)`, the rewind of wait-key (R163). -/
def State.rewindPc (s : State) : State := { s with pc := s.pc - 2#16 }

/-- `PC <- target`. -/
def State.jumpTo (s : State) (target : Word) : State := { s with pc := target }

/-- The skip helper (R108). -/
def State.skipIf (s : State) (c : Bool) : State := if c then s.advancePc else s

/-! ## Raising a fault (R180) -/

/-- `raise f` (R9, R180): the one operation that takes a fault. Nothing of the state it is given changes but `MODE`,
which becomes `Faulted(f)`. -/
def State.takeFault (s : State) (f : CoreFault) : State := { s with mode := .faulted f }

/-- The code of a fault (R181). -/
def CoreFault.code : CoreFault → Nat
  | .unsupportedOpcode _ => 1
  | .precondition .stepWhileAwaiting => 2
  | .precondition .stackUnderflow => 3
  | .precondition (.deliverWhileRunning _) => 4
  | .precondition (.keyOutOfRange _) => 5
  | .stackOverflow => 6
  | .loadTooLarge _ => 7

/-- The information a fault records (R181). -/
def CoreFault.info : CoreFault → Option Nat
  | .unsupportedOpcode w => some w.toNat
  | .precondition .stepWhileAwaiting => none
  | .precondition .stackUnderflow => none
  | .precondition (.deliverWhileRunning k) => some k
  | .precondition (.keyOutOfRange k) => some k
  | .stackOverflow => none
  | .loadTooLarge n => some n

/-! ## The call stack (R27) -/

/-- `STACK_DEPTH` is a number and the stack already holds that many entries (R27, R185). -/
def State.stackFull (s : State) : Bool :=
  match s.cfg.stackDepth with
  | none => false
  | some d => s.stack.length == d

/-- `push(a)` and then `k` on the new state, or `StackOverflow` (R27, R185). -/
def State.push (s : State) (a : Word) (k : State → State) : State :=
  if s.stackFull then s.takeFault .stackOverflow else k { s with stack := a :: s.stack }

/-- `pop()` and then `k` on the popped entry and the new state, or `PreconditionViolation(StackUnderflow)`
(R27, R184). -/
def State.pop (s : State) (k : Word → State → State) : State :=
  match s.stack with
  | [] => s.takeFault (.precondition .stackUnderflow)
  | a :: rest => k a { s with stack := rest }

/-! ## The display (R29, R151 to R153) -/

/-- `DISP[k]`; false outside the buffer. -/
def Display.cell (d : Display) (k : Nat) : Bool := if h : k / 64 < 32 then d[k / 64].getLsbD (k % 64) else false

/-- `DISP[k] <- DISP[k] ^ 1`; nothing outside the buffer. -/
def Display.toggle (d : Display) (k : Nat) : Display :=
  if h : k / 64 < 32 then d.set (k / 64) (d[k / 64] ^^^ BitVec.twoPow 64 (k % 64)) h else d

/-- The display and the collision bit while a sprite is drawn. -/
abbrev DrawAcc := Display × Bool

/-- One sprite bit at flat index `k` (R151 to R153): above 2047 it is dropped; a 0 bit changes nothing; a 1 bit toggles
the cell, and collides if the cell was on. -/
def drawBit (acc : DrawAcc) (k : Nat) (bit : Bool) : DrawAcc :=
  if 2047 < k then acc
  else if bit then (Display.toggle acc.1 k, acc.2 || Display.cell acc.1 k)
  else acc

/-- Bit of column `c` of a sprite row: bit 7 is the leftmost pixel (R151, G5). -/
def spriteBit (row : Byte) (c : Nat) : Bool := row.getLsbD (7 - c)

/-- The first `n` columns of one sprite row, whose column 0 is at flat index `k`, from the left. -/
def drawRow (row : Byte) (k : Nat) (acc : DrawAcc) : Nat → DrawAcc
  | 0 => acc
  | c + 1 => drawBit (drawRow row k acc c) (k + c) (spriteBit row c)

/-- The first `n` rows of a sprite: `rows r` is its row `r`, and its top left corner has the flat index `k`
(R151, R152). -/
def drawRows (rows : Nat → Byte) (k : Nat) (acc : DrawAcc) : Nat → DrawAcc
  | 0 => acc
  | r + 1 => drawRow (rows r) (k + r * 64) (drawRows rows k acc r) 8

/-! ## The step around an instruction (R101 to R106) -/

/-- The rule of both timers (R25, R193): down by one on a tick while non-zero, never below zero. -/
def tickTimer (tick : Bool) (t : Byte) : Byte := if t = 0#8 then t else if tick then t - 1#8 else t

/-- `apply_tick` (R102): DT always; ST only under `SOUND_TICK_MODE = core`. -/
def State.applyTick (s : State) (tick : Bool) : State :=
  { s with
    dt := tickTimer tick s.dt
    st := match s.cfg.soundTickMode with
      | .core => tickTimer tick s.st
      | .external => s.st }

/-- The working copy `t` of R101 when the instruction is dispatched: the tick, then the base advance. The tick is this
step's free input (log 2). -/
def State.beginStep (s : State) : State := (s.applyTick (Config.drawTick s.draws)).advancePc

/-- Commit (R106): the working copy becomes the state and the next step takes new free inputs; or, if the instruction
raised a fault, nothing of the working copy is kept and the state is the one before the step with
`MODE <- Faulted(f)`. -/
def State.commit (s t : State) : State :=
  match t.mode with
  | .faulted f => s.takeFault f
  | .running | .awaitingKey => { t with draws := s.draws + 1 }

/-- Commit on an outcome of exec. -/
def commitOutcome (s : State) : Outcome → Outcome
  | .next t => .next (s.commit t)
  | .fault f => .fault f
  | .refused r => .refused r

/-- What the step fetched and decoded (R101, R103). -/
def State.decodeNext (s : State) : Decoded := decode s.cfg.strictLowNibble s.fetchWord

/-- An unsupported word (R182): the step faults and commits nothing. -/
def State.rejectWord (s : State) (w : Word) : Outcome := .next (s.takeFault (.unsupportedOpcode w))

/-- `step()` in a mode other than `Running` (R100, R183): while awaiting a key it faults; while faulted it has no
transition. -/
def stepNotRunning (s : State) : Outcome :=
  match s.mode with
  | .faulted f => .fault (.stopped f)
  | .running | .awaitingKey => .next (s.takeFault (.precondition .stepWhileAwaiting))

end Sys2Proof.Machine
end

