-- ==== Sys2Proof/Machine/Operands.lean ====
section
/-! DEFINITION. The operand forms (30_encoding.md R74) and the implicit operands: addresses, the key a register names,
the rows of a sprite, the digits of bcd. -/

namespace Sys2Proof.Machine

/-- `zext_16(nnn)` (R74). -/
def zext16OfAddr (nnn : Addr12) : Word := nnn.zeroExtend 16

/-- `zext_16(b)` (R8). -/
def zext16OfByte (b : Byte) : Word := b.zeroExtend 16

/-- The target of jump-offset (R127): `trunc_16(zext_16(nnn) + zext_16(V[0]))`. -/
def offsetTarget (s : State) (nnn : Addr12) : Word := zext16OfAddr nnn + zext16OfByte (s.readV 0#4)

/-- `held` for key index `k` (R160, R161): the bit of `KBD` for 0..15, and for a larger index the step's free boolean
(R167, D14; log 23). -/
def keyHeld (kbd : Word) (draw : Bool) (k : Byte) : Bool := if k.toNat ≤ 15 then kbd.getLsbD k.toNat else draw

/-- `held` of the key that register `x` names, with this step's free boolean. -/
def State.keyOperand (s : State) (x : Reg) : Bool := keyHeld s.kbd (Config.drawBool s.draws) (s.readV x)

/-- The address of the glyph of a byte (R172): `zext_16(b) * 5`. The whole byte is used. -/
def glyphAddr (b : Byte) : Word := zext16OfByte b * 5#16

/-- Row `r` of the sprite at `I` (R151): `MemRead(I + r, 1)`. -/
def State.spriteRow (s : State) (r : Nat) : Byte := s.readByte (s.i.toNat + r)

/-- The flat index of the top left corner of a sprite at `(Vx, Vy)` (R152), an exact integer. -/
def State.spriteOrigin (s : State) (x y : Reg) : Nat := (s.readV x).toNat + (s.readV y).toNat * 64

/-- The three decimal digits of a byte, hundreds first (R173). -/
def bcdDigits (b : Byte) : List Byte :=
  [BitVec.ofNat 8 (b.toNat / 100), BitVec.ofNat 8 (b.toNat / 10 % 10), BitVec.ofNat 8 (b.toNat % 10)]

/-- How many registers `V[0..x]` are (R174, R175). -/
def regCount (x : Reg) : Nat := x.toNat + 1

end Sys2Proof.Machine
end

