-- ==== Sys2Proof/Machine/Flags.lean ====
section
/-! DEFINITION. Every flag the machine computes (10_state.md R36; 42_alu.md R137 to R141), the results beside them, and
the order in which an ALU operation writes flag and result (R132). -/

namespace Sys2Proof.Machine

/-- A flag as the byte VF holds: 0 or 1 (R22). -/
def flagByte (b : Bool) : Byte := if b then 1#8 else 0#8

/-- Carry of `a + b` (R137): the exact sum exceeds 255. -/
def addCarry (a b : Byte) : Bool := 255 < a.toNat + b.toNat

/-- `trunc_8(a + b)` (R137). -/
def addResult (a b : Byte) : Byte := BitVec.ofNat 8 (a.toNat + b.toNat)

/-- No borrow in `a - b` (R138; R140 with the operands swapped): `a >= b`. -/
def noBorrow (a b : Byte) : Bool := b.toNat ≤ a.toNat

/-- `trunc_8(a - b)` (R138). -/
def subResult (a b : Byte) : Byte := a - b

/-- The bit a right shift drops (R139). -/
def shrOut (a : Byte) : Bool := a.getLsbD 0

/-- `a >> 1` (R139). -/
def shrResult (a : Byte) : Byte := a >>> 1

/-- The bit a left shift drops (R141). -/
def shlOut (a : Byte) : Bool := a.getLsbD 7

/-- `trunc_8(a << 1)` (R141). -/
def shlResult (a : Byte) : Byte := a <<< 1

/-- Write the flag to VF and the result to `V[x]`, in the order of `VF_DEST_ORDER` (R132). -/
def State.writeFlagged (s : State) (x : Reg) (result : Byte) (flag : Bool) : State :=
  match s.cfg.vfDestOrder with
  | .resultLast => (s.writeV vf (flagByte flag)).writeV x result
  | .flagLast => (s.writeV x result).writeV vf (flagByte flag)

end Sys2Proof.Machine
end

