-- ==== Sys2Proof/Machine/Alu.lean ====
section
/-! DEFINITION. Register loads and the 8-bit ALU (42_alu.md). Operands are read before anything is written (R132,
00_scope.md R10). -/

namespace Sys2Proof.Machine

/-- LD_imm (R130). -/
def execLdImm (x : Reg) (nn : Byte) (s : State) : Outcome := .next (s.writeV x nn)

/-- ADD_imm (R131): no flag. -/
def execAddImm (x : Reg) (nn : Byte) (s : State) : Outcome := .next (s.writeV x (addResult (s.readV x) nn))

/-- LD_reg (R133): no flag. -/
def execLdReg (x y : Reg) (s : State) : Outcome := .next (s.writeV x (s.readV y))

/-- OR (R134): no flag. -/
def execOr (x y : Reg) (s : State) : Outcome := .next (s.writeV x (s.readV x ||| s.readV y))

/-- AND (R135): no flag. -/
def execAnd (x y : Reg) (s : State) : Outcome := .next (s.writeV x (s.readV x &&& s.readV y))

/-- XOR (R136): no flag. -/
def execXor (x y : Reg) (s : State) : Outcome := .next (s.writeV x (s.readV x ^^^ s.readV y))

/-- ADD_reg (R137). -/
def execAddReg (x y : Reg) (s : State) : Outcome :=
  .next (s.writeFlagged x (addResult (s.readV x) (s.readV y)) (addCarry (s.readV x) (s.readV y)))

/-- SUB (R138). -/
def execSub (x y : Reg) (s : State) : Outcome :=
  .next (s.writeFlagged x (subResult (s.readV x) (s.readV y)) (noBorrow (s.readV x) (s.readV y)))

/-- SHR (R139): Vx is shifted, y is ignored. -/
def execShr (x : Reg) (s : State) : Outcome := .next (s.writeFlagged x (shrResult (s.readV x)) (shrOut (s.readV x)))

/-- SUBN (R140). -/
def execSubn (x y : Reg) (s : State) : Outcome :=
  .next (s.writeFlagged x (subResult (s.readV y) (s.readV x)) (noBorrow (s.readV y) (s.readV x)))

/-- SHL (R141): Vx is shifted, y is ignored. -/
def execShl (x : Reg) (s : State) : Outcome := .next (s.writeFlagged x (shlResult (s.readV x)) (shlOut (s.readV x)))

/-- RND on a given random byte (R142): `V[x] <- rnd & nn`. -/
def State.random (s : State) (rnd : Byte) (x : Reg) (nn : Byte) : State := s.writeV x (rnd &&& nn)

/-- RND (R142), with this step's free byte (log 2). -/
def execRnd (x : Reg) (nn : Byte) (s : State) : Outcome := .next (s.random (Config.drawByte s.draws) x nn)

end Sys2Proof.Machine
end

