-- ==== Sys2Proof/Machine/Control.lean ====
section
/-! DEFINITION. Control transfer (41_control_flow.md): return, jump, call, the register and immediate skips,
jump-offset. Each runs on the working copy, whose PC has been advanced (R104). -/

namespace Sys2Proof.Machine

/-- RET (R120): `PC <- pop()`. -/
def execRet (s : State) : Outcome := .next (s.pop fun a t => t.jumpTo a)

/-- JP (R121): `PC <- zext_16(nnn)`. -/
def execJp (nnn : Addr12) (s : State) : Outcome := .next (s.jumpTo (zext16OfAddr nnn))

/-- CALL (R122): `push(PC); PC <- zext_16(nnn)`. -/
def execCall (nnn : Addr12) (s : State) : Outcome := .next (s.push s.pc fun t => t.jumpTo (zext16OfAddr nnn))

/-- SE_imm (R123). -/
def execSeImm (x : Reg) (nn : Byte) (s : State) : Outcome := .next (s.skipIf (s.readV x == nn))

/-- SNE_imm (R124). -/
def execSneImm (x : Reg) (nn : Byte) (s : State) : Outcome := .next (s.skipIf (s.readV x != nn))

/-- SE_reg (R125). -/
def execSeReg (x y : Reg) (s : State) : Outcome := .next (s.skipIf (s.readV x == s.readV y))

/-- SNE_reg (R126). -/
def execSneReg (x y : Reg) (s : State) : Outcome := .next (s.skipIf (s.readV x != s.readV y))

/-- JP_V0 (R127): always V0. -/
def execJpV0 (nnn : Addr12) (s : State) : Outcome := .next (s.jumpTo (offsetTarget s nnn))

end Sys2Proof.Machine
end

