-- ==== Sys2Proof/Machine/Index.lean ====
section
/-! DEFINITION. The index register and memory (45_index_memory.md). None writes VF as a flag, and bcd, store-regs and
load-regs leave I unchanged. -/

namespace Sys2Proof.Machine

/-- LD_I (R170). -/
def execLdI (nnn : Addr12) (s : State) : Outcome := .next { s with i := zext16OfAddr nnn }

/-- ADD_I (R171): modulo 2^16, no flag. -/
def execAddI (x : Reg) (s : State) : Outcome := .next { s with i := s.i + zext16OfByte (s.readV x) }

/-- LD_F (R172). -/
def execLdF (x : Reg) (s : State) : Outcome := .next { s with i := glyphAddr (s.readV x) }

/-- LD_B (R173): hundreds, tens, ones at I, I + 1, I + 2. -/
def execLdB (x : Reg) (s : State) : Outcome := .next (s.writeBytes s.i.toNat (bcdDigits (s.readV x)))

/-- LD_mem_store (R174). -/
def execLdMemStore (x : Reg) (s : State) : Outcome := .next (s.storeRegs (regCount x))

/-- LD_mem_load (R175). -/
def execLdMemLoad (x : Reg) (s : State) : Outcome := .next (s.loadRegs (regCount x))

end Sys2Proof.Machine
end

