-- ==== Sys2Proof/Machine/Keys.lean ====
section
/-! DEFINITION. Keys and timers (44_keys_timers.md). DT and ST in the working copy have ticked (R102). -/

namespace Sys2Proof.Machine

/-- SKP (R160). -/
def execSkp (x : Reg) (s : State) : Outcome := .next (s.skipIf (s.keyOperand x))

/-- SKNP (R161). -/
def execSknp (x : Reg) (s : State) : Outcome := .next (s.skipIf (!s.keyOperand x))

/-- LD_Vx_DT (R162). -/
def execLdVxDt (x : Reg) (s : State) : Outcome := .next (s.writeV x s.dt)

/-- LD_Vx_K (R163): `MODE <- AwaitingKey; WAIT_DST <- x; PC <- trunc_16(PC - 2)`. -/
def execLdVxK (x : Reg) (s : State) : Outcome := .next { s.rewindPc with mode := .awaitingKey, waitDst := x }

/-- LD_DT_Vx (R164). -/
def execLdDtVx (x : Reg) (s : State) : Outcome := .next { s with dt := s.readV x }

/-- LD_ST_Vx (R165). -/
def execLdStVx (x : Reg) (s : State) : Outcome := .next { s with st := s.readV x }

end Sys2Proof.Machine
end

