-- ==== Sys2Proof/Machine/Screen.lean ====
section
/-! DEFINITION. The display instructions (43_display.md): clear-screen and draw. -/

namespace Sys2Proof.Machine

/-- CLS (R150): every cell off. -/
def execCls (s : State) : Outcome := .next { s with disp := Display.blank }

/-- What a draw makes of the display and the collision bit (R151): everything is read from `s`. -/
def State.drawn (s : State) (x y : Reg) (n : Nibble) : DrawAcc :=
  drawRows s.spriteRow (s.spriteOrigin x y) (s.disp, false) n.toNat

/-- DRW (R151 to R153): VF is written last, with the collision bit. -/
def execDrw (x y : Reg) (n : Nibble) (s : State) : Outcome :=
  .next ({ s with disp := (s.drawn x y n).1 }.writeV vf (flagByte (s.drawn x y n).2))

end Sys2Proof.Machine
end

