-- ==== Sys2Proof/Machine/Step.lean ====
section
/-! DEFINITION. `step()` (40_dispatch.md R100, R101), composed of the operations of Ops.lean and exec, and the fetch word
placed for it. -/

namespace Sys2Proof.Machine

/-- One step in `Running` (R101): decode the fetched word; an unsupported one faults; an instruction runs on the working
copy, and the outcome is committed. -/
def stepRunning (s : State) : Outcome :=
  match s.decodeNext with
  | .unsupported w => s.rejectWord w
  | .instr i => commitOutcome s (exec i s.beginStep)

/-- `step()` (R100, R188): the mode is checked before anything is fetched. -/
def step (s : State) : Host.Outcome State Fault Refusal :=
  if s.mode = .running then stepRunning s else stepNotRunning s

/-- `s`, running, with a row's word stored where the next step fetches (R103): the high byte at PC, the low byte at
PC + 1, each address reduced modulo 4096 (log 12). -/
def State.withFetchWord (s : State) (nbits w : Nat) : State :=
  { s with mode := .running }.writeFetchWord (tableWord nbits w)

end Sys2Proof.Machine
end

