-- ==== Sys2Proof/Machine/External.lean ====
section
/-! DEFINITION. The host interface (00_scope.md R2; 60_exceptions.md R190, R195; 70_reset_and_hazards.md R200): the
operations beside `step`, the readable outputs, and all operations as one transition function. Each operation is atomic
and happens between steps (20_memory.md R59). -/

namespace Sys2Proof.Machine

/-- `PROGRAM_BASE` (R6). -/
def programBase : Nat := 512

/-- The state `load(program)` leaves when the program fits (R200): everything at its reset value, the program at 512.
The parameters are the machine's, and the free inputs go on (log 28). -/
def State.loaded (cfg : Config) (draws : Nat) (program : List Byte) : State :=
  (State.fresh cfg draws).writeBytes programBase program

/-- `load(program)` (R187, R200): legal in every mode. -/
def load (program : List Byte) (s : State) : Outcome :=
  if programFits program then .next (State.loaded s.cfg s.draws program)
  else .next (s.takeFault (.loadTooLarge program.length))

/-- The completion of a pending wait-key (R166): `V[WAIT_DST] <- k; PC <- trunc_16(PC + 2); MODE <- Running`. -/
def State.resume (s : State) (k : Nat) : State :=
  { (s.writeV s.waitDst (BitVec.ofNat 8 k)).advancePc with mode := .running }

/-- `deliverKey(k)` (R166, R186, R188). -/
def deliverKey (k : Nat) (s : State) : Outcome :=
  match s.mode with
  | .faulted f => .fault (.stopped f)
  | .running => .next (s.takeFault (.precondition (.deliverWhileRunning k)))
  | .awaitingKey => if k ≤ 15 then .next (s.resume k) else .next (s.takeFault (.precondition (.keyOutOfRange k)))

/-- The host's write of `KBD` (R30, R190). -/
def setKbd (mask : Word) (s : State) : Outcome := .next { s with kbd := mask }

/-- `soundTick()` (R193): only under `SOUND_TICK_MODE = external`; `if ST > 0: ST <- ST - 1` (log 15). -/
def soundTick (s : State) : Outcome :=
  match s.cfg.soundTickMode with
  | .core => .refused .noSoundTick
  | .external => .next { s with st := tickTimer true s.st }

/-! ## Outputs (R195) -/

/-- `isAwaitingKey()` (R31). -/
def State.isAwaitingKey (s : State) : Bool := s.mode == .awaitingKey

/-- `soundOn` (R194): `ST ≠ 0`. -/
def State.soundOn (s : State) : Bool := s.st != 0#8

/-- The pixel at column `col` of row `row` (R29): cell `col + row * 64`. -/
def State.pixel (s : State) (col row : Nat) : Bool := Display.cell s.disp (col + row * 64)

/-- The fault output: code and information of `MODE = Faulted(f)` (R181, R195). -/
def State.faultOutput (s : State) : Option (Nat × Option Nat) :=
  match s.mode with
  | .faulted f => some (f.code, f.info)
  | .running | .awaitingKey => none

/-! ## All operations -/

/-- An operation of the host (R195). -/
inductive HostOp where
  | load (program : List Byte)
  | step
  | deliverKey (key : Nat)
  | setKbd (mask : Word)
  | soundTick
  deriving DecidableEq, Repr

/-- An operation on a loaded machine. -/
def HostOp.apply (op : HostOp) (s : State) : Outcome :=
  match op with
  | .load p => Sys2Proof.Machine.load p s
  | .step => Sys2Proof.Machine.step s
  | .deliverKey k => Sys2Proof.Machine.deliverKey k s
  | .setKbd m => Sys2Proof.Machine.setKbd m s
  | .soundTick => Sys2Proof.Machine.soundTick s

/-- An operation on a machine with parameters `cfg` before its first `load` (R201): only `load` has a transition
(log 13). -/
def HostOp.applyUnloaded (op : HostOp) (cfg : Config) : Outcome :=
  match op with
  | .load p => if programFits p then .next (State.loaded cfg 0 p) else .fault (.firstLoadTooLarge p.length)
  | .step | .deliverKey _ | .setKbd _ | .soundTick => .refused .beforeFirstLoad

/-- Operations one after another on a loaded machine, up to the first that answers no next state. -/
def runOps : List HostOp → State → Outcome
  | [], s => .next s
  | op :: ops, s =>
    match op.apply s with
    | .next t => runOps ops t
    | .fault f => .fault f
    | .refused r => .refused r

end Sys2Proof.Machine
end

