-- ==== Sys2Proof/Safety.lean ====
section
/-! DEFINITION. The terms in which claims are stated: the parts of the state and what a transition leaves unchanged, what
the access matrix (10_state.md R35) lets an instruction write, how an ALU operation writes flag and result (R132), which
cells a sprite lights (R152), and the invariant of the machine. -/

namespace Sys2Proof.Machine

/-! ## Parts of the state -/

/-- One piece of the state (R20): a register, a byte of memory, a cell of the display, and so on; and the model's own
`cfg` and `draws`. -/
inductive Part where
  | v (r : Reg)
  | pc
  | i
  | dt
  | st
  | stack
  | byte (a : Nat)
  | cell (k : Nat)
  | kbd
  | mode
  | waitDst
  | cfg
  | draws
  deriving DecidableEq, Repr

/-- The part reads the same in both states. A byte of memory is read as the machine reads it, at any natural address. -/
def Part.same (s t : State) : Part → Prop
  | .v r => t.readV r = s.readV r
  | .pc => t.pc = s.pc
  | .i => t.i = s.i
  | .dt => t.dt = s.dt
  | .st => t.st = s.st
  | .stack => t.stack = s.stack
  | .byte a => t.readByte a = s.readByte a
  | .cell k => Display.cell t.disp k = Display.cell s.disp k
  | .kbd => t.kbd = s.kbd
  | .mode => t.mode = s.mode
  | .waitDst => t.waitDst = s.waitDst
  | .cfg => t.cfg = s.cfg
  | .draws => t.draws = s.draws

/-- The frame: every part outside `may` reads in `t` as it did in `s`. -/
def OnlyChanges (may : Part → Prop) (s t : State) : Prop := ∀ p, ¬ may p → p.same s t

/-- The address `a` is byte `base + j` of memory for some `j < n`, both reduced as the machine reduces addresses
(R51). -/
def InBytes (base n a : Nat) : Prop := ∃ j, j < n ∧ reduceAddr a = reduceAddr (base + j)

/-! ## What an instruction may write (R35, column "written by") -/

/-- The register the `x` field names as a destination, if the instruction has one. -/
def destOf : Instr → Option Reg
  | .ldImm x _ | .addImm x _ | .ldReg x _ | .orReg x _ | .andReg x _ | .xorReg x _ | .addReg x _ | .sub x _ | .shr x _
  | .subn x _ | .shl x _ | .rnd x _ | .ldVxDt x => some x
  | .cls | .ret | .jp _ | .call _ | .seImm _ _ | .sneImm _ _ | .seReg _ _ _ | .sneReg _ _ _ | .ldI _ | .jpV0 _
  | .drw _ _ _ | .skp _ | .sknp _ | .ldVxK _ | .ldDtVx _ | .ldStVx _ | .addI _ | .ldF _ | .ldB _ | .ldMemStore _
  | .ldMemLoad _ => none

/-- The instruction writes VF as a flag (R22). -/
def writesFlag : Instr → Bool
  | .addReg _ _ | .sub _ _ | .shr _ _ | .subn _ _ | .shl _ _ | .drw _ _ _ => true
  | .cls | .ret | .jp _ | .call _ | .seImm _ _ | .sneImm _ _ | .seReg _ _ _ | .ldImm _ _ | .addImm _ _ | .ldReg _ _
  | .orReg _ _ | .andReg _ _ | .xorReg _ _ | .sneReg _ _ _ | .ldI _ | .jpV0 _ | .rnd _ _ | .skp _ | .sknp _ | .ldVxDt _
  | .ldVxK _ | .ldDtVx _ | .ldStVx _ | .addI _ | .ldF _ | .ldB _ | .ldMemStore _ | .ldMemLoad _ => false

/-- The instruction may write PC beyond the base advance (R35, row `PC`). -/
def writesPc : Instr → Bool
  | .ret | .jp _ | .call _ | .seImm _ _ | .sneImm _ _ | .seReg _ _ _ | .sneReg _ _ _ | .jpV0 _ | .skp _ | .sknp _
  | .ldVxK _ => true
  | .cls | .ldImm _ _ | .addImm _ _ | .ldReg _ _ | .orReg _ _ | .andReg _ _ | .xorReg _ _ | .addReg _ _ | .sub _ _
  | .shr _ _ | .subn _ _ | .shl _ _ | .ldI _ | .rnd _ _ | .drw _ _ _ | .ldVxDt _ | .ldDtVx _ | .ldStVx _ | .addI _
  | .ldF _ | .ldB _ | .ldMemStore _ | .ldMemLoad _ => false

/-- What the matrix lets an instruction write, part by part. `MODE` is also written by the faults of return and call. -/
def mayWrite (i : Instr) : Part → Prop
  | .v r => destOf i = some r ∨ (writesFlag i = true ∧ r = vf) ∨ ∃ x, i = .ldMemLoad x ∧ r.toNat ≤ x.toNat
  | .pc => writesPc i = true
  | .i => (∃ a, i = .ldI a) ∨ (∃ x, i = .addI x) ∨ ∃ x, i = .ldF x
  | .dt => ∃ x, i = .ldDtVx x
  | .st => ∃ x, i = .ldStVx x
  | .stack => i = .ret ∨ ∃ a, i = .call a
  | .byte _ => (∃ x, i = .ldB x) ∨ ∃ x, i = .ldMemStore x
  | .cell _ => i = .cls ∨ ∃ x y n, i = .drw x y n
  | .mode => (∃ x, i = .ldVxK x) ∨ i = .ret ∨ ∃ a, i = .call a
  | .waitDst => ∃ x, i = .ldVxK x
  | .kbd | .cfg | .draws => False

/-! ## Values -/

/-- Flag and result of an ALU operation with destination `x` stand as R132 says: if `x` is not VF, `V[x]` holds the
result and VF the flag; if it is, the later write of `VF_DEST_ORDER` is what VF holds. -/
def FlagAndResult (s t : State) (x : Reg) (result : Nat) (flag : Prop) : Prop :=
  (x ≠ vf → (t.readV x).toNat = result ∧ (flag → t.readV vf = 1#8) ∧ (¬ flag → t.readV vf = 0#8)) ∧
  (x = vf → s.cfg.vfDestOrder = .resultLast → (t.readV vf).toNat = result) ∧
  (x = vf → s.cfg.vfDestOrder = .flagLast → (flag → t.readV vf = 1#8) ∧ (¬ flag → t.readV vf = 0#8))

/-- A sprite bit of 1 of `Dxyn` falls on flat index `k` (R151, R152): some row `r < n` and column `c < 8` with
`k = Vx + c + (Vy + r) * 64`, whose bit `7 - c` of `MEM[I + r]` is 1. -/
def SpriteLights (s : State) (x y : Reg) (n : Nibble) (k : Nat) : Prop :=
  ∃ r c, r < n.toNat ∧ c < 8 ∧ k = (s.readV x).toNat + c + ((s.readV y).toNat + r) * 64 ∧
    (s.readByte (s.i.toNat + r)).getLsbD (7 - c) = true

/-- The word decodes as the instruction, whatever `STRICT_LOW_NIBBLE` is. -/
def DecodesAs (w : Word) (i : Instr) : Prop := ∀ strict, decode strict w = .instr i

/-- A map on the next state of an outcome. -/
def mapNext (f : State → State) : Outcome → Outcome
  | .next t => .next (f t)
  | .fault r => .fault r
  | .refused r => .refused r

/-! ## The invariant -/

/-- What `MODE` says of the rest of the state. While awaiting a key, PC is at the wait-key that waits and `WAIT_DST` is
its register (R23, R32, R163). A fault is precise (R180): after a faulting step PC is at the faulting instruction, and
the fault's cause still stands. -/
def State.ModeConsistent (s : State) : Prop :=
  match s.mode with
  | .running => True
  | .awaitingKey => s.decodeNext = .instr (.ldVxK s.waitDst)
  | .faulted (.unsupportedOpcode w) => s.fetchWord = w ∧ s.decodeNext = .unsupported w
  | .faulted (.precondition .stepWhileAwaiting) => s.decodeNext = .instr (.ldVxK s.waitDst)
  | .faulted (.precondition .stackUnderflow) => s.decodeNext = .instr .ret ∧ s.stack = []
  | .faulted (.precondition (.deliverWhileRunning _)) => True
  | .faulted (.precondition (.keyOutOfRange k)) => 15 < k ∧ s.decodeNext = .instr (.ldVxK s.waitDst)
  | .faulted .stackOverflow => (∃ a, s.decodeNext = .instr (.call a)) ∧ s.cfg.stackDepth = some s.stack.length
  | .faulted (.loadTooLarge n) => maxProgram < n

/-- The memory of a state is in its canonical form. -/
def State.MemWf (s : State) : Prop := Memory.wf (resetByte s.cfg.font) s.mem = true

/-- A bounded stack holds at most `STACK_DEPTH` entries (R27). -/
def State.StackBounded (s : State) : Prop := ∀ d, s.cfg.stackDepth = some d → s.stack.length ≤ d

/-- The invariant of the machine. -/
structure State.Inv (s : State) : Prop where
  mem : s.MemWf
  stack : s.StackBounded
  mode : s.ModeConsistent

/-- What a safe run never does: stand in `Faulted`. -/
def State.NotFaulted (s : State) : Prop := ∀ f, s.mode ≠ .faulted f

end Sys2Proof.Machine
end

