-- ==== Sys2Proof/Certificates/Slice0/Obligations.lean ====
section
/-! DEFINITION. The statements for the provers. In a statement about `exec i s`, `s` is the working copy of the step
(40_dispatch.md R101): the tick is applied and PC has advanced. `OnlyChanges may s t` is the frame: every part of the
state outside `may`, every byte of memory and every display cell among them, reads in `t` as in `s`. The free inputs
`Config.drawTick`, `Config.drawByte`, `Config.drawBool` have no body, so a statement holds for every value of them. A clause
`DecodesAs` says the encoding line of the instruction's rule; the spec marks those encodings as general knowledge (log 9). -/

open Sys2Proof Sys2Proof.Machine

/-! ## Control transfer (41_control_flow.md) -/

/-- RET (R120, R184). That an empty stack is a fatal fault is the spec's own decision (R184, last sentence; log 14). The
last clause is the whole step: nothing is committed but the fault. -/
def Obligations.ReturnPopsStackIntoPc : Prop :=
  DecodesAs 0x00EE#16 .ret ∧
  (∀ (s : State) (a : Word) (rest : List Word), s.stack = a :: rest →
    ∃ t, exec .ret s = .next t ∧ t.pc = a ∧ t.stack = rest ∧ OnlyChanges (fun p => p = .pc ∨ p = .stack) s t) ∧
  (∀ s : State, s.stack = [] →
    ∃ t, exec .ret s = .next t ∧ t.mode = .faulted (.precondition .stackUnderflow) ∧
      OnlyChanges (fun p => p = .mode) s t) ∧
  (∀ s : State, s.mode = .running → s.decodeNext = .instr .ret → s.stack = [] →
    step s = .next { s with mode := .faulted (.precondition .stackUnderflow) })

/-- JP (R121): `PC <- zext_16(nnn)`. -/
def Obligations.JumpSetsPcToAddress : Prop :=
  ∀ (nnn : Addr12), DecodesAs (0x1#4 ++ nnn) (.jp nnn) ∧
    ∀ s : State, ∃ t, exec (.jp nnn) s = .next t ∧ t.pc.toNat = nnn.toNat ∧ OnlyChanges (fun p => p = .pc) s t

/-- CALL (R122, R185): `push(PC); PC <- zext_16(nnn)`, or `StackOverflow` on a full bounded stack. The bound and its fault
are the spec's own decision D5 (log 4). -/
def Obligations.CallPushesPcAndJumps : Prop :=
  ∀ (nnn : Addr12), DecodesAs (0x2#4 ++ nnn) (.call nnn) ∧
    (∀ s : State, s.cfg.stackDepth ≠ some s.stack.length →
      ∃ t, exec (.call nnn) s = .next t ∧ t.stack = s.pc :: s.stack ∧ t.pc.toNat = nnn.toNat ∧
        OnlyChanges (fun p => p = .pc ∨ p = .stack) s t) ∧
    (∀ s : State, s.cfg.stackDepth = some s.stack.length →
      ∃ t, exec (.call nnn) s = .next t ∧ t.mode = .faulted .stackOverflow ∧ OnlyChanges (fun p => p = .mode) s t) ∧
    (∀ s : State, s.mode = .running → s.decodeNext = .instr (.call nnn) →
      s.cfg.stackDepth = some s.stack.length → step s = .next { s with mode := .faulted .stackOverflow })

/-- SE_imm and SNE_imm (R123, R124): PC goes on by two exactly when the condition holds; exactly one of the pair skips. -/
def Obligations.ImmediateSkipsCompareRegister : Prop :=
  ∀ (x : Reg) (nn : Byte), DecodesAs (0x3#4 ++ x ++ nn) (.seImm x nn) ∧ DecodesAs (0x4#4 ++ x ++ nn) (.sneImm x nn) ∧
    ∀ s : State, ∃ t u, exec (.seImm x nn) s = .next t ∧ exec (.sneImm x nn) s = .next u ∧
      (s.readV x = nn → t.pc = s.pc + 2#16 ∧ u.pc = s.pc) ∧
      (s.readV x ≠ nn → t.pc = s.pc ∧ u.pc = s.pc + 2#16) ∧
      OnlyChanges (fun p => p = .pc) s t ∧ OnlyChanges (fun p => p = .pc) s u

/-- SE_reg and SNE_reg (R125, R126), whatever the low nibble of the word. Which words they are follows the spec's own
decision D13 (log 6): under the strict decoder the low nibble is 0, under the lax one anything. -/
def Obligations.RegisterSkipsCompareRegisters : Prop :=
  ∀ (x y : Reg) (n : Nibble),
    (decode true (0x5#4 ++ x ++ y ++ n) = if n = 0#4 then .instr (.seReg x y n) else .unsupported (0x5#4 ++ x ++ y ++ n)) ∧
    (decode true (0x9#4 ++ x ++ y ++ n) = if n = 0#4 then .instr (.sneReg x y n) else .unsupported (0x9#4 ++ x ++ y ++ n)) ∧
    decode false (0x5#4 ++ x ++ y ++ n) = .instr (.seReg x y n) ∧
    decode false (0x9#4 ++ x ++ y ++ n) = .instr (.sneReg x y n) ∧
    ∀ s : State, ∃ t u, exec (.seReg x y n) s = .next t ∧ exec (.sneReg x y n) s = .next u ∧
      (s.readV x = s.readV y → t.pc = s.pc + 2#16 ∧ u.pc = s.pc) ∧
      (s.readV x ≠ s.readV y → t.pc = s.pc ∧ u.pc = s.pc + 2#16) ∧
      OnlyChanges (fun p => p = .pc) s t ∧ OnlyChanges (fun p => p = .pc) s u

/-- JP_V0 (R127): `PC <- nnn + V0`, kept in 16 bits and never reduced to 12. -/
def Obligations.JumpOffsetAddsV0 : Prop :=
  ∀ (nnn : Addr12), DecodesAs (0xB#4 ++ nnn) (.jpV0 nnn) ∧
    ∀ s : State, ∃ t, exec (.jpV0 nnn) s = .next t ∧ t.pc.toNat = nnn.toNat + (s.readV 0#4).toNat ∧
      OnlyChanges (fun p => p = .pc) s t

/-! ## Loads and the ALU (42_alu.md) -/

/-- LD_imm (R130). -/
def Obligations.LoadImmediateWritesRegister : Prop :=
  ∀ (x : Reg) (nn : Byte), DecodesAs (0x6#4 ++ x ++ nn) (.ldImm x nn) ∧
    ∀ s : State, ∃ t, exec (.ldImm x nn) s = .next t ∧ t.readV x = nn ∧ OnlyChanges (fun p => p = .v x) s t

/-- ADD_imm (R131): modulo 256, no flag. -/
def Obligations.AddImmediateWrapsWithoutFlag : Prop :=
  ∀ (x : Reg) (nn : Byte), DecodesAs (0x7#4 ++ x ++ nn) (.addImm x nn) ∧
    ∀ s : State, ∃ t, exec (.addImm x nn) s = .next t ∧ (t.readV x).toNat = ((s.readV x).toNat + nn.toNat) % 256 ∧
      OnlyChanges (fun p => p = .v x) s t

/-- LD_reg, OR, AND, XOR (R133 to R136). That they leave VF alone (unless it is `x`) is the spec's own decision D12
(log 21). -/
def Obligations.AssignAndLogicWriteOnlyDestination : Prop :=
  ∀ (x y : Reg), DecodesAs (0x8#4 ++ x ++ y ++ 0x0#4) (.ldReg x y) ∧ DecodesAs (0x8#4 ++ x ++ y ++ 0x1#4) (.orReg x y) ∧
    DecodesAs (0x8#4 ++ x ++ y ++ 0x2#4) (.andReg x y) ∧ DecodesAs (0x8#4 ++ x ++ y ++ 0x3#4) (.xorReg x y) ∧
    ∀ s : State,
      (∃ t, exec (.ldReg x y) s = .next t ∧ t.readV x = s.readV y ∧ OnlyChanges (fun p => p = .v x) s t) ∧
      (∃ t, exec (.orReg x y) s = .next t ∧ t.readV x = s.readV x ||| s.readV y ∧ OnlyChanges (fun p => p = .v x) s t) ∧
      (∃ t, exec (.andReg x y) s = .next t ∧ t.readV x = s.readV x &&& s.readV y ∧ OnlyChanges (fun p => p = .v x) s t) ∧
      (∃ t, exec (.xorReg x y) s = .next t ∧ t.readV x = s.readV x ^^^ s.readV y ∧ OnlyChanges (fun p => p = .v x) s t)

/-- ADD_reg (R137): the sum modulo 256, and VF = 1 exactly when it exceeds 255; for `x = VF` by `VF_DEST_ORDER`. -/
def Obligations.AddRegistersWritesSumAndCarry : Prop :=
  ∀ (x y : Reg), DecodesAs (0x8#4 ++ x ++ y ++ 0x4#4) (.addReg x y) ∧
    ∀ s : State, ∃ t, exec (.addReg x y) s = .next t ∧
      FlagAndResult s t x (((s.readV x).toNat + (s.readV y).toNat) % 256)
        ((s.readV x).toNat + (s.readV y).toNat > 255) ∧
      OnlyChanges (fun p => p = .v x ∨ p = .v vf) s t

/-- SUB (R138): the difference modulo 256, and VF = 1 exactly when there is no borrow. -/
def Obligations.SubtractWritesDifferenceAndNoBorrow : Prop :=
  ∀ (x y : Reg), DecodesAs (0x8#4 ++ x ++ y ++ 0x5#4) (.sub x y) ∧
    ∀ s : State, ∃ t, exec (.sub x y) s = .next t ∧
      FlagAndResult s t x (((s.readV x).toNat + 256 - (s.readV y).toNat) % 256)
        ((s.readV x).toNat ≥ (s.readV y).toNat) ∧
      OnlyChanges (fun p => p = .v x ∨ p = .v vf) s t

/-- SHR (R139): `Vx >> 1`, VF the bit shifted out. That Vx is shifted and `y` ignored is the spec's own decision D11
(log 21). -/
def Obligations.ShiftRightHalvesAndKeepsLowBit : Prop :=
  ∀ (x y : Reg), DecodesAs (0x8#4 ++ x ++ y ++ 0x6#4) (.shr x y) ∧
    ∀ s : State, ∃ t, exec (.shr x y) s = .next t ∧
      FlagAndResult s t x ((s.readV x).toNat / 2) ((s.readV x).toNat % 2 = 1) ∧
      OnlyChanges (fun p => p = .v x ∨ p = .v vf) s t

/-- SUBN (R140): `Vy - Vx` modulo 256, VF = 1 exactly when there is no borrow. The polarity is the spec's own decision
D10 (log 21). -/
def Obligations.ReverseSubtractWritesDifferenceAndNoBorrow : Prop :=
  ∀ (x y : Reg), DecodesAs (0x8#4 ++ x ++ y ++ 0x7#4) (.subn x y) ∧
    ∀ s : State, ∃ t, exec (.subn x y) s = .next t ∧
      FlagAndResult s t x (((s.readV y).toNat + 256 - (s.readV x).toNat) % 256)
        ((s.readV y).toNat ≥ (s.readV x).toNat) ∧
      OnlyChanges (fun p => p = .v x ∨ p = .v vf) s t

/-- SHL (R141): `Vx << 1` modulo 256, VF the bit shifted out. D11 as for SHR (log 21). -/
def Obligations.ShiftLeftDoublesAndKeepsHighBit : Prop :=
  ∀ (x y : Reg), DecodesAs (0x8#4 ++ x ++ y ++ 0xE#4) (.shl x y) ∧
    ∀ s : State, ∃ t, exec (.shl x y) s = .next t ∧
      FlagAndResult s t x ((s.readV x).toNat * 2 % 256) ((s.readV x).toNat ≥ 128) ∧
      OnlyChanges (fun p => p = .v x ∨ p = .v vf) s t

/-- RND (R142): the step's free byte (log 2), masked. -/
def Obligations.RandomIsFreeByteMasked : Prop :=
  ∀ (x : Reg) (nn : Byte), DecodesAs (0xC#4 ++ x ++ nn) (.rnd x nn) ∧
    ∀ s : State, ∃ t, exec (.rnd x nn) s = .next t ∧ t.readV x = Config.drawByte s.draws &&& nn ∧
      OnlyChanges (fun p => p = .v x) s t

/-! ## Display (43_display.md) -/

/-- CLS (R150). -/
def Obligations.ClearScreenTurnsEveryCellOff : Prop :=
  DecodesAs 0x00E0#16 .cls ∧
    ∀ s : State, ∃ t, exec .cls s = .next t ∧ (∀ k, k < 2048 → Display.cell t.disp k = false) ∧
      OnlyChanges (fun p => ∃ k, p = .cell k) s t

/-- DRW (R151 to R153), for every `x`, `y`, `n`, VF as a coordinate and `n = 0` among them: a cell below 2048 that a
sprite bit of 1 falls on turns over, every other cell stays; VF is 1 exactly when a cell went from on to off. Bit order,
read order and `n = 0` are the spec's own decisions (D26, D21, D30; log 22). -/
def Obligations.DrawXorsSpriteAndReportsCollision : Prop :=
  ∀ (x y : Reg) (n : Nibble), DecodesAs (0xD#4 ++ x ++ y ++ n) (.drw x y n) ∧
    ∀ s : State, ∃ t, exec (.drw x y n) s = .next t ∧
      (∀ k, k < 2048 → SpriteLights s x y n k → Display.cell t.disp k = !Display.cell s.disp k) ∧
      (∀ k, k < 2048 → ¬ SpriteLights s x y n k → Display.cell t.disp k = Display.cell s.disp k) ∧
      ((∃ k, k < 2048 ∧ Display.cell s.disp k = true ∧ Display.cell t.disp k = false) → t.readV vf = 1#8) ∧
      ((¬ ∃ k, k < 2048 ∧ Display.cell s.disp k = true ∧ Display.cell t.disp k = false) → t.readV vf = 0#8) ∧
      OnlyChanges (fun p => p = .v vf ∨ ∃ k, p = .cell k) s t

/-- Drawing the same sprite twice at the same place restores the display (95_test_vectors.md S6); the second draw collides
exactly when the sprite lights some cell that was off before the first, and the first exactly when it lights some cell that
was on. "The same place": the first draw's write of VF has not changed a coordinate. Which cells the sprite lights rests on
the bit order, the spec's own decision D26, and on the spill past column 63 that R152 derives (U6); both log 22. -/
def Obligations.DrawingTwiceRestoresDisplay : Prop :=
  ∀ (x y : Reg) (n : Nibble) (s t u : State), exec (.drw x y n) s = .next t → t.readV x = s.readV x →
    t.readV y = s.readV y → exec (.drw x y n) t = .next u →
    u.disp = s.disp ∧
    (u.readV vf = 1#8 ↔ ∃ k, k < 2048 ∧ SpriteLights s x y n k ∧ Display.cell s.disp k = false) ∧
    (t.readV vf = 1#8 ↔ ∃ k, k < 2048 ∧ SpriteLights s x y n k ∧ Display.cell s.disp k = true)

/-! ## Keys and timers (44_keys_timers.md) -/

/-- SKP and SKNP (R160, R161, R167): the skip follows bit `Vx` of `KBD` for 0..15, and the step's free boolean for a
larger index, which is the spec's own decision D14 (log 23). -/
def Obligations.KeyTestsSkipOnKeyHeld : Prop :=
  ∀ (x : Reg), DecodesAs (0xE#4 ++ x ++ 0x9E#8) (.skp x) ∧ DecodesAs (0xE#4 ++ x ++ 0xA1#8) (.sknp x) ∧
    ∀ s : State, ∃ t u, exec (.skp x) s = .next t ∧ exec (.sknp x) s = .next u ∧
      (∀ held : Bool,
        ((s.readV x).toNat ≤ 15 → held = s.kbd.getLsbD (s.readV x).toNat) →
        (15 < (s.readV x).toNat → held = Config.drawBool s.draws) →
        (held = true → t.pc = s.pc + 2#16 ∧ u.pc = s.pc) ∧ (held = false → t.pc = s.pc ∧ u.pc = s.pc + 2#16)) ∧
      OnlyChanges (fun p => p = .pc) s t ∧ OnlyChanges (fun p => p = .pc) s u

/-- LD_Vx_DT (R162): DT of the working copy, that is, after this step's tick; the last clause is the whole step. That the
tick comes first and is a free input is the spec's own decision D6 (log 20); the form of that input is the model's choice
(log 2). -/
def Obligations.ReadDelayCopiesTickedTimer : Prop :=
  ∀ (x : Reg), DecodesAs (0xF#4 ++ x ++ 0x07#8) (.ldVxDt x) ∧
    (∀ s : State, ∃ t, exec (.ldVxDt x) s = .next t ∧ t.readV x = s.dt ∧ OnlyChanges (fun p => p = .v x) s t) ∧
    (∀ s : State, s.mode = .running → s.decodeNext = .instr (.ldVxDt x) →
      ∃ t, step s = .next t ∧
        (t.readV x).toNat = if Config.drawTick s.draws then s.dt.toNat - 1 else s.dt.toNat)

/-- LD_Vx_K (R163): the core awaits a key, remembering `x`, with PC back at this instruction, wrap included; `KBD` is not
consulted. The last clause is the whole step: the net PC is unchanged and this step's tick applies. The tick as a free input
is the spec's own decision D6 (log 20), its form the model's choice (log 2). -/
def Obligations.WaitKeySuspendsAtItself : Prop :=
  ∀ (x : Reg), DecodesAs (0xF#4 ++ x ++ 0x0A#8) (.ldVxK x) ∧
    (∀ s : State, ∃ t, exec (.ldVxK x) s = .next t ∧ t.mode = .awaitingKey ∧ t.waitDst = x ∧ t.pc = s.pc - 2#16 ∧
      OnlyChanges (fun p => p = .mode ∨ p = .waitDst ∨ p = .pc) s t) ∧
    (∀ s : State, s.mode = .running → s.decodeNext = .instr (.ldVxK x) →
      ∃ t, step s = .next t ∧ t.mode = .awaitingKey ∧ t.waitDst = x ∧ t.pc = s.pc ∧
        t.dt.toNat = (if Config.drawTick s.draws then s.dt.toNat - 1 else s.dt.toNat) ∧
        OnlyChanges (fun p => p = .mode ∨ p = .waitDst ∨ p = .dt ∨ p = .st ∨ p = .draws) s t)

/-- LD_DT_Vx and LD_ST_Vx (R164, R165): the timer takes Vx; the write comes after this step's tick, so the value written
is what the whole step leaves. That order is the spec's own decision D6 (log 20). -/
def Obligations.TimerWritesTakeRegister : Prop :=
  ∀ (x : Reg), DecodesAs (0xF#4 ++ x ++ 0x15#8) (.ldDtVx x) ∧ DecodesAs (0xF#4 ++ x ++ 0x18#8) (.ldStVx x) ∧
    (∀ s : State,
      (∃ t, exec (.ldDtVx x) s = .next t ∧ t.dt = s.readV x ∧ OnlyChanges (fun p => p = .dt) s t) ∧
      (∃ t, exec (.ldStVx x) s = .next t ∧ t.st = s.readV x ∧ t.soundOn = (s.readV x != 0#8) ∧
        OnlyChanges (fun p => p = .st) s t)) ∧
    (∀ s : State, s.mode = .running → s.decodeNext = .instr (.ldDtVx x) → ∃ t, step s = .next t ∧ t.dt = s.readV x) ∧
    (∀ s : State, s.mode = .running → s.decodeNext = .instr (.ldStVx x) → ∃ t, step s = .next t ∧ t.st = s.readV x)

/-! ## Index register and memory (45_index_memory.md) -/

/-- LD_I (R170). -/
def Obligations.LoadIndexWritesAddress : Prop :=
  ∀ (nnn : Addr12), DecodesAs (0xA#4 ++ nnn) (.ldI nnn) ∧
    ∀ s : State, ∃ t, exec (.ldI nnn) s = .next t ∧ t.i.toNat = nnn.toNat ∧ OnlyChanges (fun p => p = .i) s t

/-- ADD_I (R171): modulo 2^16; VF is not written. -/
def Obligations.AddIndexWrapsWithoutFlag : Prop :=
  ∀ (x : Reg), DecodesAs (0xF#4 ++ x ++ 0x1E#8) (.addI x) ∧
    ∀ s : State, ∃ t, exec (.addI x) s = .next t ∧ t.i.toNat = (s.i.toNat + (s.readV x).toNat) % 65536 ∧
      OnlyChanges (fun p => p = .i) s t

/-- LD_F (R172): five times the whole byte, exact. -/
def Obligations.FontAddressIsFiveTimesByte : Prop :=
  ∀ (x : Reg), DecodesAs (0xF#4 ++ x ++ 0x29#8) (.ldF x) ∧
    ∀ s : State, ∃ t, exec (.ldF x) s = .next t ∧ t.i.toNat = (s.readV x).toNat * 5 ∧ OnlyChanges (fun p => p = .i) s t

/-- LD_B (R173): the decimal digits at I, I + 1, I + 2, each address reduced modulo 4096. That I is unchanged is the
spec's own decision D22 (log 24). -/
def Obligations.BcdStoresThreeDigits : Prop :=
  ∀ (x : Reg), DecodesAs (0xF#4 ++ x ++ 0x33#8) (.ldB x) ∧
    ∀ s : State, ∃ t, exec (.ldB x) s = .next t ∧
      (t.readByte s.i.toNat).toNat = (s.readV x).toNat / 100 ∧
      (t.readByte (s.i.toNat + 1)).toNat = (s.readV x).toNat / 10 % 10 ∧
      (t.readByte (s.i.toNat + 2)).toNat = (s.readV x).toNat % 10 ∧
      OnlyChanges (fun p => ∃ a, p = .byte a ∧ InBytes s.i.toNat 3 a) s t

/-- LD_mem_store (R174): `V[j]` at I + j for `j` in 0..x. D22 as for LD_B (log 24). -/
def Obligations.StoreRegistersWritesConsecutiveBytes : Prop :=
  ∀ (x : Reg), DecodesAs (0xF#4 ++ x ++ 0x55#8) (.ldMemStore x) ∧
    ∀ s : State, ∃ t, exec (.ldMemStore x) s = .next t ∧
      (∀ r : Reg, r.toNat ≤ x.toNat → t.readByte (s.i.toNat + r.toNat) = s.readV r) ∧
      OnlyChanges (fun p => ∃ a, p = .byte a ∧ InBytes s.i.toNat (x.toNat + 1) a) s t

/-- LD_mem_load (R175): `V[j] <- MemRead(I + j)` for `j` in 0..x. D22 as for LD_B (log 24). -/
def Obligations.LoadRegistersReadsConsecutiveBytes : Prop :=
  ∀ (x : Reg), DecodesAs (0xF#4 ++ x ++ 0x65#8) (.ldMemLoad x) ∧
    ∀ s : State, ∃ t, exec (.ldMemLoad x) s = .next t ∧
      (∀ r : Reg, r.toNat ≤ x.toNat → t.readV r = s.readByte (s.i.toNat + r.toNat)) ∧
      OnlyChanges (fun p => ∃ r : Reg, r.toNat ≤ x.toNat ∧ p = .v r) s t

/-! ## Memory and fetch (20_memory.md, 40_dispatch.md) -/

/-- Address reduction (R51), the spec's own decision D1 on its conflict C1 (log 10): a read is at the address modulo 4096, and a write changes that byte and nothing else. -/
def Obligations.MemoryAddressesReduceModulo4096 : Prop :=
  ∀ (s : State) (a : Nat), s.readByte a = s.readByte (a % 4096) ∧
    ∀ b : Byte, (s.writeByte a b).readByte a = b ∧ s.writeByte a b = s.writeByte (a % 4096) b ∧
      OnlyChanges (fun p => ∃ c, p = .byte c ∧ c % 4096 = a % 4096) s (s.writeByte a b)

/-- Fetch (R103): big-endian from PC and PC + 1, each address modulo 4096 on its own (D1, log 10). -/
def Obligations.FetchReadsBigEndianAtPc : Prop :=
  ∀ s : State, s.fetchWord.toNat =
    (s.readByte (s.pc.toNat % 4096)).toNat * 256 + (s.readByte ((s.pc.toNat + 1) % 4096)).toNat

/-- A store is seen by the next fetch (R61; the spec's own decision D20, log 26), and PC values 4096 apart fetch the same
word (R128): the fetch of a word stored at PC is that word, at every PC. -/
def Obligations.FetchSeesStoredBytes : Prop :=
  ∀ (s : State) (hi lo : Byte),
    ((s.writeByte s.pc.toNat hi).writeByte (s.pc.toNat + 1) lo).fetchWord.toNat = hi.toNat * 256 + lo.toNat ∧
    ∀ k : Nat, { s with pc := s.pc + BitVec.ofNat 16 (4096 * k) }.fetchWord = s.fetchWord

/-! ## The step (40_dispatch.md, 60_exceptions.md) -/

/-- A step runs the decoded instruction (R101, R104, R106). When the two bytes at PC decode to `i`, the step runs `i` on
the working copy, whose PC is advanced by 2 and whose timers have ticked, and commits the outcome whole, taking new free
inputs; or, when the instruction raised a fault, commits nothing but that fault. When the bytes decode to nothing, nothing
is committed, the PC advance among it. That a fault commits nothing is the spec's own decision D3 (log 19); `draws` is the
model's own (log 2). -/
def Obligations.StepRunsDecodedInstruction : Prop :=
  ∀ s : State, s.mode = .running →
    (∀ i, decodeBytes s.cfg.strictLowNibble (s.readByte s.pc.toNat) (s.readByte (s.pc.toNat + 1)) = .instr i →
      s.beginStep = { s with pc := s.pc + 2#16, dt := s.beginStep.dt, st := s.beginStep.st } ∧
      (∀ t, exec i s.beginStep = .next t →
        (t.NotFaulted → step s = .next { t with draws := s.draws + 1 }) ∧
        (∀ f, t.mode = .faulted f → step s = .next { s with mode := .faulted f }))) ∧
    (∀ w, decodeBytes s.cfg.strictLowNibble (s.readByte s.pc.toNat) (s.readByte (s.pc.toNat + 1)) = .unsupported w →
      step s = .next { s with mode := .faulted (.unsupportedOpcode w) })

/-- The tick (R102, R193): a timer above zero counts down by one on a tick and a timer at zero stays; ST only under
`SOUND_TICK_MODE = core`; nothing else changes. The step's tick is its free input. The order, the default of the mode and
the tick as a free input are the spec's own decisions D6 and D7 (logs 7 and 20). -/
def Obligations.TickCountsTimersDown : Prop :=
  ∀ (s : State),
    (∀ tick : Bool,
      (s.applyTick tick).dt.toNat = (if tick then s.dt.toNat - 1 else s.dt.toNat) ∧
      (s.cfg.soundTickMode = .core → (s.applyTick tick).st.toNat = if tick then s.st.toNat - 1 else s.st.toNat) ∧
      (s.cfg.soundTickMode = .external → (s.applyTick tick).st = s.st) ∧
      OnlyChanges (fun p => p = .dt ∨ p = .st) s (s.applyTick tick)) ∧
    s.beginStep.dt = (s.applyTick (Config.drawTick s.draws)).dt ∧
    s.beginStep.st = (s.applyTick (Config.drawTick s.draws)).st

/-- An unsupported word (R182): the step faults with that word and commits nothing, tick and PC advance included. -/
def Obligations.UnsupportedWordFaultsAndCommitsNothing : Prop :=
  ∀ (s : State) (w : Word), s.mode = .running → s.decodeNext = .unsupported w →
    w = s.fetchWord ∧ step s = .next { s with mode := .faulted (.unsupportedOpcode s.fetchWord) }

/-- `step()` outside `Running` (R183, and R100 for `Faulted`): while awaiting a key it faults and changes nothing else;
while faulted it has no transition, and neither has `deliverKey`: the faulted state is the spec's own decision D4 (log 14). -/
def Obligations.StepOutsideRunningDoesNotRun : Prop :=
  (∀ s : State, s.mode = .awaitingKey →
    step s = .next { s with mode := .faulted (.precondition .stepWhileAwaiting) }) ∧
  (∀ (s : State) (f : CoreFault), s.mode = .faulted f →
    step s = .fault (.stopped f) ∧ ∀ k, deliverKey k s = .fault (.stopped f))

/-- The outcomes of a step (R107): from every state it commits an instruction and is `Running` or `AwaitingKey`; or it
takes one of the four faults of a step and commits nothing else; or it has no transition, in `Faulted`. The stack faults,
the commit rule and `Faulted` are the spec's own decisions (D5, D3, D4; logs 4, 14, 19). -/
def Obligations.StepHasExactlyTheListedOutcomes : Prop :=
  ∀ s : State,
    (∃ t i, step s = .next t ∧ s.mode = .running ∧ s.decodeNext = .instr i ∧ (t.mode = .running ∨ t.mode = .awaitingKey)) ∨
    (s.mode = .running ∧ s.decodeNext = .unsupported s.fetchWord ∧
      step s = .next (s.takeFault (.unsupportedOpcode s.fetchWord))) ∨
    (s.mode = .awaitingKey ∧ step s = .next (s.takeFault (.precondition .stepWhileAwaiting))) ∨
    (s.mode = .running ∧ s.decodeNext = .instr .ret ∧ s.stack = [] ∧
      step s = .next (s.takeFault (.precondition .stackUnderflow))) ∨
    (s.mode = .running ∧ (∃ a, s.decodeNext = .instr (.call a)) ∧ s.cfg.stackDepth = some s.stack.length ∧
      step s = .next (s.takeFault .stackOverflow)) ∨
    (∃ f, s.mode = .faulted f ∧ step s = .fault (.stopped f))

/-- A taken skip leaves `PC = old PC + 4` and a skip not taken `old PC + 2`, modulo 2^16, whatever word is skipped
(R108); for a key index above 15, by the step's free boolean (the spec's own decision D14, log 23). -/
def Obligations.StepOfSkipMovesPcByTwoOrFour : Prop :=
  ∀ (s : State) (x y : Reg) (nn : Byte) (n : Nibble), s.mode = .running →
    (s.decodeNext = .instr (.seImm x nn) →
      ∃ t, step s = .next t ∧ t.pc = s.pc + if s.readV x = nn then 4#16 else 2#16) ∧
    (s.decodeNext = .instr (.sneImm x nn) →
      ∃ t, step s = .next t ∧ t.pc = s.pc + if s.readV x ≠ nn then 4#16 else 2#16) ∧
    (s.decodeNext = .instr (.seReg x y n) →
      ∃ t, step s = .next t ∧ t.pc = s.pc + if s.readV x = s.readV y then 4#16 else 2#16) ∧
    (s.decodeNext = .instr (.sneReg x y n) →
      ∃ t, step s = .next t ∧ t.pc = s.pc + if s.readV x ≠ s.readV y then 4#16 else 2#16) ∧
    (s.decodeNext = .instr (.skp x) → ∃ t, step s = .next t ∧ t.pc = s.pc +
      if (if (s.readV x).toNat ≤ 15 then s.kbd.getLsbD (s.readV x).toNat else Config.drawBool s.draws) then 4#16
      else 2#16) ∧
    (s.decodeNext = .instr (.sknp x) → ∃ t, step s = .next t ∧ t.pc = s.pc +
      if (if (s.readV x).toNat ≤ 15 then s.kbd.getLsbD (s.readV x).toNat else Config.drawBool s.draws) then 2#16
      else 4#16)

/-- A call followed by a return restores PC to the instruction after the call and leaves the stack as it was
(95_test_vectors.md S8), for steps, with any instruction that is a return at the target. -/
def Obligations.CallThenReturnResumesAfterCall : Prop :=
  ∀ (s t u : State) (nnn : Addr12), s.mode = .running → s.decodeNext = .instr (.call nnn) →
    s.cfg.stackDepth ≠ some s.stack.length → step s = .next t → t.decodeNext = .instr .ret → step t = .next u →
    t.pc.toNat = nnn.toNat ∧ u.pc = s.pc + 2#16 ∧ u.stack = s.stack ∧ u.mode = .running ∧
      OnlyChanges (fun p => p = .pc ∨ p = .dt ∨ p = .st ∨ p = .draws) s u

/-! ## Host operations and faults (44_keys_timers.md, 60_exceptions.md, 70_reset_and_hazards.md) -/

/-- `deliverKey(k)` (R166, R186). In `AwaitingKey` with `k <= 15` it writes the key to `V[WAIT_DST]`, advances PC by 2 and
returns to `Running`, and nothing else: no tick, `KBD` unchanged. The faults outside that are the spec's own decision D15
(log 16). -/
def Obligations.DeliverKeyCompletesWait : Prop :=
  ∀ (s : State) (k : Nat),
    (s.mode = .awaitingKey → k ≤ 15 → ∃ t, deliverKey k s = .next t ∧ (t.readV s.waitDst).toNat = k ∧
      t.pc = s.pc + 2#16 ∧ t.mode = .running ∧
      OnlyChanges (fun p => p = .v s.waitDst ∨ p = .pc ∨ p = .mode) s t) ∧
    (s.mode = .awaitingKey → 15 < k →
      deliverKey k s = .next { s with mode := .faulted (.precondition (.keyOutOfRange k)) }) ∧
    (s.mode = .running →
      deliverKey k s = .next { s with mode := .faulted (.precondition (.deliverWhileRunning k)) })

/-- `load(program)` (R200, R187), in every mode and for every `FONT`: every field at its reset value, the font at 0..79,
the program at 512, 0 elsewhere; a program of more than 3584 bytes is refused by a fault that changes nothing else. The
values of I, KBD and WAIT_DST are the spec's own decision D24 (log 11), the fault D23 (log 25). -/
def Obligations.LoadInstallsFontAndProgram : Prop :=
  ∀ (s : State) (program : List Byte),
    (program.length ≤ 3584 → ∃ t, load program s = .next t ∧
      (∀ a, a < 80 → t.readByte a = s.cfg.font.toList.getD a 0#8) ∧
      (∀ a, 80 ≤ a → a < 512 → t.readByte a = 0#8) ∧
      (∀ j, j < program.length → t.readByte (512 + j) = program.getD j 0#8) ∧
      (∀ a, 512 + program.length ≤ a → a < 4096 → t.readByte a = 0#8) ∧
      (∀ r, t.readV r = 0#8) ∧ t.pc = 512#16 ∧ t.i = 0#16 ∧ t.dt = 0#8 ∧ t.st = 0#8 ∧ t.stack = [] ∧
      (∀ k, Display.cell t.disp k = false) ∧ t.kbd = 0#16 ∧ t.waitDst = 0#4 ∧ t.mode = .running ∧ t.cfg = s.cfg) ∧
    (3584 < program.length → load program s = .next { s with mode := .faulted (.loadTooLarge program.length) })

/-- The reset state (R38), for the empty program and the default parameters of R7. I, KBD and WAIT_DST by D24 (log 11);
the defaults by D5, D7, D9, D13 (logs 4 to 7); the empty program is the model's choice (log 12). -/
def Obligations.ResetLeavesTheListedValues : Prop :=
  (∀ r, State.reset.readV r = 0#8) ∧ State.reset.pc = 512#16 ∧ State.reset.i = 0#16 ∧ State.reset.dt = 0#8 ∧
  State.reset.st = 0#8 ∧ State.reset.stack = [] ∧ State.reset.kbd = 0#16 ∧ State.reset.mode = .running ∧
  State.reset.waitDst = 0#4 ∧ (∀ k, Display.cell State.reset.disp k = false) ∧
  (∀ a, a < 4096 → State.reset.readByte a = if a < 80 then Config.default.font.toList.getD a 0#8 else 0#8) ∧
  Config.default.stackDepth = none ∧ Config.default.vfDestOrder = .resultLast ∧
  Config.default.strictLowNibble = true ∧ Config.default.soundTickMode = .core

/-- `soundTick()` (R193), and the timers outside a step: under `SOUND_TICK_MODE = external` it counts ST down to zero and
changes nothing else; under `core` there is no such operation. That it does not check `MODE` is the model's reading
(log 15). -/
def Obligations.SoundTickCountsSoundTimerDown : Prop :=
  ∀ s : State,
    (s.cfg.soundTickMode = .external → ∃ t, soundTick s = .next t ∧ t.st.toNat = s.st.toNat - 1 ∧
      OnlyChanges (fun p => p = .st) s t) ∧
    (s.cfg.soundTickMode = .core → soundTick s = .refused .noSoundTick)

/-- Faults are precise (R180): when `step`, `deliverKey` or `load` leaves the core faulted, the state is the one before it
but for `MODE`; and then `step` and `deliverKey` have no transition, and only a `load` leaves `Faulted` (R189). That a
fault ends the run until `load` is the spec's own decision D4, and that it commits nothing D3 (logs 14 and 19). -/
def Obligations.FaultsCommitNothingUntilLoad : Prop :=
  (∀ (s t : State) (f : CoreFault) (op : HostOp),
    (op = .step ∨ (∃ k, op = .deliverKey k) ∨ ∃ p, op = .load p) →
    op.apply s = .next t → t.mode = .faulted f → t = { s with mode := .faulted f }) ∧
  (∀ (s t : State) (f : CoreFault) (op : HostOp), s.mode = .faulted f → op.apply s = .next t →
    t.mode = .faulted f ∨ ∃ p, op = .load p)

/-- The transitions of `MODE` (R31), over every operation: only a step whose word is a wait-key enters `AwaitingKey`; only
`deliverKey` goes from `AwaitingKey` back to `Running`; any fault enters `Faulted`; `load` enters `Running`. The third
state is the spec's own addition (R31, D4; log 14). -/
def Obligations.ModeChangesOnlyAsListed : Prop :=
  ∀ (s t : State) (op : HostOp), op.apply s = .next t →
    t.mode = s.mode ∨
    (s.mode = .running ∧ t.mode = .awaitingKey ∧ op = .step ∧ s.decodeNext = .instr (.ldVxK t.waitDst)) ∨
    (s.mode = .awaitingKey ∧ t.mode = .running ∧ ∃ k, k ≤ 15 ∧ op = .deliverKey k) ∨
    (∃ f, t = s.takeFault f) ∨
    (t.mode = .running ∧ ∃ p, op = .load p)

/-! ## Whole-machine rules over all instructions -/

/-- The access matrix (10_state.md section 10, column "written by"): no instruction writes a part the matrix does not give
it; `KBD` is written by none. -/
def Obligations.InstructionsWriteOnlyTheirParts : Prop :=
  ∀ (i : Instr) (s t : State), exec i s = .next t → OnlyChanges (mayWrite i) s t

/-- No instruction reads ST (R26): two states that differ only in ST run every instruction alike, and differ afterwards
only in ST. -/
def Obligations.SoundTimerIsNeverRead : Prop :=
  ∀ (i : Instr) (s : State) (b : Byte), ∃ c : Byte,
    exec i { s with st := b } = mapNext (fun t => { t with st := c }) (exec i s)

/-- Only SKP and SKNP read `KBD` (R30): every other instruction runs alike whatever keys are held. -/
def Obligations.OnlyKeyTestsReadKeyMask : Prop :=
  ∀ (i : Instr) (s : State) (m : Word), (∀ x, i ≠ .skp x) → (∀ x, i ≠ .sknp x) →
    exec i { s with kbd := m } = mapNext (fun t => { t with kbd := m }) (exec i s)

/-- Nothing of the state is hidden from the parts: two states with canonical memories whose parts all read the same are
equal. So a frame over the parts is a frame over the whole state. -/
def Obligations.StateIsDeterminedByItsParts : Prop :=
  ∀ s t : State, s.MemWf → t.MemWf → OnlyChanges (fun _ => False) s t → t = s

/-! ## Encoding (30_encoding.md) -/

/-- Decoding an encoded well-formed instruction gives it back, every operand at every value, under either
`STRICT_LOW_NIBBLE`. -/
def Obligations.DecodeOfEncodeIsIdentity : Prop :=
  ∀ (strict : Bool) (i : Instr), i.wellFormed strict = true → decode strict (encode i) = .instr i

/-- Each word has one meaning and none is lost: a word that decodes to an instruction is that instruction's encoding, and
the instruction is well-formed. It holds by a choice of the model (log 27, DESIGN CHOICE): SE_reg and SNE_reg carry the low
nibble and SHR and SHL carry `y`, bits that R80, R139 and R141 call ignored and that no meaning uses. -/
def Obligations.EncodeOfDecodeIsIdentity : Prop :=
  ∀ (strict : Bool) (w : Word) (i : Instr), decode strict w = .instr i → encode i = w ∧ i.wellFormed strict = true

/-- The unsupported words are those that match no row of the opcode table (R84), and the decoder hands back the word. -/
def Obligations.UnsupportedExactlyOutsideOpcodeTable : Prop :=
  ∀ (strict : Bool) (w : Word),
    (decode strict w = .unsupported w ↔ ∀ row ∈ opcodeTable strict, row.covers w = false) ∧
    ∀ w', decode strict w = .unsupported w' → w' = w

/-- No word matches two rows of the opcode table. -/
def Obligations.OpcodeRowsDoNotOverlap : Prop :=
  ∀ (strict : Bool) (w : Word) (r r' : OpcodeRow), r ∈ opcodeTable strict → r' ∈ opcodeTable strict →
    r.covers w = true → r'.covers w = true → r = r'

/-- Words of 95_test_vectors.md section 2.1 decode as that table says. -/
def Obligations.TableOfDecodedWordsHolds : Prop :=
  decode true 0x0000#16 = .unsupported 0x0000#16 ∧ decode true 0x0FFF#16 = .unsupported 0x0FFF#16 ∧
  decode true 0x2FFF#16 = .instr (.call 0xFFF#12) ∧ decode true 0x5121#16 = .unsupported 0x5121#16 ∧
  decode false 0x5121#16 = .instr (.seReg 1#4 2#4 1#4) ∧ decode true 0x800E#16 = .instr (.shl 0#4 0#4) ∧
  decode true 0x800F#16 = .unsupported 0x800F#16 ∧ decode true 0x9AB0#16 = .instr (.sneReg 0xA#4 0xB#4 0#4) ∧
  decode true 0xEFA1#16 = .instr (.sknp 0xF#4) ∧ decode true 0xF165#16 = .instr (.ldMemLoad 1#4) ∧
  decode true 0xFFFF#16 = .unsupported 0xFFFF#16

/-! ## The invariant -/

/-- The invariant holds at reset. -/
def Obligations.ResetMeetsInvariant : Prop := State.reset.Inv

/-- Every step keeps the invariant, from every state that meets it: the memory stays canonical, a bounded stack within its
bound, a waiting core at its wait-key, a faulted core at the cause of its fault. -/
def Obligations.StepKeepsInvariant : Prop := ∀ s t : State, s.Inv → step s = .next t → t.Inv

/-- Every operation of the host keeps the invariant, from every state that meets it. -/
def Obligations.HostOperationsKeepInvariant : Prop :=
  ∀ (op : HostOp) (s t : State), s.Inv → op.apply s = .next t → t.Inv

/-- Whatever the parameters, a machine that begins with a `load` meets the invariant after every sequence of host
operations; and no sequence is cut short but by a step or key in `Faulted` or a `soundTick()` the interface does not have.
That there is no state before the first `load` is the model's choice (log 13); that `Faulted` has no transition but `load`
is the spec's own decision D4 (log 14); that `soundTick()` is refused under `core`, and checks no MODE, is the model's
reading (log 15). -/
def Obligations.EveryRunFromLoadMeetsInvariant : Prop :=
  ∀ (cfg : Config) (program : List Byte) (ops : List HostOp) (s : State),
    HostOp.applyUnloaded (.load program) cfg = .next s →
    (∀ t, runOps ops s = .next t → t.Inv ∧ t.cfg = cfg) ∧
    (∀ r, runOps ops s = .fault r → ∃ f, r = .stopped f) ∧
    (∀ r, runOps ops s = .refused r → r = .noSoundTick ∧ cfg.soundTickMode = .core)
end

