-- ==== Sys2Proof/Laws/State.lean ====
section
/-! SUPPORT. What each update of the state leaves as it was: one lemma per field per update, true by rfl, so that no proof
unfolds a record update. The updates are the named operations of Ops.lean and Flags.lean; a field an update writes has
its own lemma there. -/

namespace Sys2Proof.Machine

/-! ## writeByte -/

@[simp] theorem State.writeByte_cfg (s : State) (a : Nat) (b : Byte) : (s.writeByte a b).cfg = s.cfg := rfl
@[simp] theorem State.writeByte_v (s : State) (a : Nat) (b : Byte) : (s.writeByte a b).v = s.v := rfl
@[simp] theorem State.writeByte_pc (s : State) (a : Nat) (b : Byte) : (s.writeByte a b).pc = s.pc := rfl
@[simp] theorem State.writeByte_i (s : State) (a : Nat) (b : Byte) : (s.writeByte a b).i = s.i := rfl
@[simp] theorem State.writeByte_dt (s : State) (a : Nat) (b : Byte) : (s.writeByte a b).dt = s.dt := rfl
@[simp] theorem State.writeByte_st (s : State) (a : Nat) (b : Byte) : (s.writeByte a b).st = s.st := rfl
@[simp] theorem State.writeByte_stack (s : State) (a : Nat) (b : Byte) : (s.writeByte a b).stack = s.stack := rfl
@[simp] theorem State.writeByte_disp (s : State) (a : Nat) (b : Byte) : (s.writeByte a b).disp = s.disp := rfl
@[simp] theorem State.writeByte_kbd (s : State) (a : Nat) (b : Byte) : (s.writeByte a b).kbd = s.kbd := rfl
@[simp] theorem State.writeByte_mode (s : State) (a : Nat) (b : Byte) : (s.writeByte a b).mode = s.mode := rfl
@[simp] theorem State.writeByte_waitDst (s : State) (a : Nat) (b : Byte) : (s.writeByte a b).waitDst = s.waitDst := rfl
@[simp] theorem State.writeByte_draws (s : State) (a : Nat) (b : Byte) : (s.writeByte a b).draws = s.draws := rfl

/-! ## writeV -/

@[simp] theorem State.writeV_cfg (s : State) (r : Reg) (b : Byte) : (s.writeV r b).cfg = s.cfg := rfl
@[simp] theorem State.writeV_pc (s : State) (r : Reg) (b : Byte) : (s.writeV r b).pc = s.pc := rfl
@[simp] theorem State.writeV_i (s : State) (r : Reg) (b : Byte) : (s.writeV r b).i = s.i := rfl
@[simp] theorem State.writeV_dt (s : State) (r : Reg) (b : Byte) : (s.writeV r b).dt = s.dt := rfl
@[simp] theorem State.writeV_st (s : State) (r : Reg) (b : Byte) : (s.writeV r b).st = s.st := rfl
@[simp] theorem State.writeV_stack (s : State) (r : Reg) (b : Byte) : (s.writeV r b).stack = s.stack := rfl
@[simp] theorem State.writeV_mem (s : State) (r : Reg) (b : Byte) : (s.writeV r b).mem = s.mem := rfl
@[simp] theorem State.writeV_disp (s : State) (r : Reg) (b : Byte) : (s.writeV r b).disp = s.disp := rfl
@[simp] theorem State.writeV_kbd (s : State) (r : Reg) (b : Byte) : (s.writeV r b).kbd = s.kbd := rfl
@[simp] theorem State.writeV_mode (s : State) (r : Reg) (b : Byte) : (s.writeV r b).mode = s.mode := rfl
@[simp] theorem State.writeV_waitDst (s : State) (r : Reg) (b : Byte) : (s.writeV r b).waitDst = s.waitDst := rfl
@[simp] theorem State.writeV_draws (s : State) (r : Reg) (b : Byte) : (s.writeV r b).draws = s.draws := rfl

/-! ## advancePc -/

@[simp] theorem State.advancePc_cfg (s : State) : (s.advancePc).cfg = s.cfg := rfl
@[simp] theorem State.advancePc_v (s : State) : (s.advancePc).v = s.v := rfl
@[simp] theorem State.advancePc_pc (s : State) : (s.advancePc).pc = s.pc + 2#16 := rfl
@[simp] theorem State.advancePc_i (s : State) : (s.advancePc).i = s.i := rfl
@[simp] theorem State.advancePc_dt (s : State) : (s.advancePc).dt = s.dt := rfl
@[simp] theorem State.advancePc_st (s : State) : (s.advancePc).st = s.st := rfl
@[simp] theorem State.advancePc_stack (s : State) : (s.advancePc).stack = s.stack := rfl
@[simp] theorem State.advancePc_mem (s : State) : (s.advancePc).mem = s.mem := rfl
@[simp] theorem State.advancePc_disp (s : State) : (s.advancePc).disp = s.disp := rfl
@[simp] theorem State.advancePc_kbd (s : State) : (s.advancePc).kbd = s.kbd := rfl
@[simp] theorem State.advancePc_mode (s : State) : (s.advancePc).mode = s.mode := rfl
@[simp] theorem State.advancePc_waitDst (s : State) : (s.advancePc).waitDst = s.waitDst := rfl
@[simp] theorem State.advancePc_draws (s : State) : (s.advancePc).draws = s.draws := rfl

/-! ## rewindPc -/

@[simp] theorem State.rewindPc_cfg (s : State) : (s.rewindPc).cfg = s.cfg := rfl
@[simp] theorem State.rewindPc_v (s : State) : (s.rewindPc).v = s.v := rfl
@[simp] theorem State.rewindPc_pc (s : State) : (s.rewindPc).pc = s.pc - 2#16 := rfl
@[simp] theorem State.rewindPc_i (s : State) : (s.rewindPc).i = s.i := rfl
@[simp] theorem State.rewindPc_dt (s : State) : (s.rewindPc).dt = s.dt := rfl
@[simp] theorem State.rewindPc_st (s : State) : (s.rewindPc).st = s.st := rfl
@[simp] theorem State.rewindPc_stack (s : State) : (s.rewindPc).stack = s.stack := rfl
@[simp] theorem State.rewindPc_mem (s : State) : (s.rewindPc).mem = s.mem := rfl
@[simp] theorem State.rewindPc_disp (s : State) : (s.rewindPc).disp = s.disp := rfl
@[simp] theorem State.rewindPc_kbd (s : State) : (s.rewindPc).kbd = s.kbd := rfl
@[simp] theorem State.rewindPc_mode (s : State) : (s.rewindPc).mode = s.mode := rfl
@[simp] theorem State.rewindPc_waitDst (s : State) : (s.rewindPc).waitDst = s.waitDst := rfl
@[simp] theorem State.rewindPc_draws (s : State) : (s.rewindPc).draws = s.draws := rfl

/-! ## jumpTo -/

@[simp] theorem State.jumpTo_cfg (s : State) (a : Word) : (s.jumpTo a).cfg = s.cfg := rfl
@[simp] theorem State.jumpTo_v (s : State) (a : Word) : (s.jumpTo a).v = s.v := rfl
@[simp] theorem State.jumpTo_pc (s : State) (a : Word) : (s.jumpTo a).pc = a := rfl
@[simp] theorem State.jumpTo_i (s : State) (a : Word) : (s.jumpTo a).i = s.i := rfl
@[simp] theorem State.jumpTo_dt (s : State) (a : Word) : (s.jumpTo a).dt = s.dt := rfl
@[simp] theorem State.jumpTo_st (s : State) (a : Word) : (s.jumpTo a).st = s.st := rfl
@[simp] theorem State.jumpTo_stack (s : State) (a : Word) : (s.jumpTo a).stack = s.stack := rfl
@[simp] theorem State.jumpTo_mem (s : State) (a : Word) : (s.jumpTo a).mem = s.mem := rfl
@[simp] theorem State.jumpTo_disp (s : State) (a : Word) : (s.jumpTo a).disp = s.disp := rfl
@[simp] theorem State.jumpTo_kbd (s : State) (a : Word) : (s.jumpTo a).kbd = s.kbd := rfl
@[simp] theorem State.jumpTo_mode (s : State) (a : Word) : (s.jumpTo a).mode = s.mode := rfl
@[simp] theorem State.jumpTo_waitDst (s : State) (a : Word) : (s.jumpTo a).waitDst = s.waitDst := rfl
@[simp] theorem State.jumpTo_draws (s : State) (a : Word) : (s.jumpTo a).draws = s.draws := rfl

/-! ## takeFault -/

@[simp] theorem State.takeFault_cfg (s : State) (f : CoreFault) : (s.takeFault f).cfg = s.cfg := rfl
@[simp] theorem State.takeFault_v (s : State) (f : CoreFault) : (s.takeFault f).v = s.v := rfl
@[simp] theorem State.takeFault_pc (s : State) (f : CoreFault) : (s.takeFault f).pc = s.pc := rfl
@[simp] theorem State.takeFault_i (s : State) (f : CoreFault) : (s.takeFault f).i = s.i := rfl
@[simp] theorem State.takeFault_dt (s : State) (f : CoreFault) : (s.takeFault f).dt = s.dt := rfl
@[simp] theorem State.takeFault_st (s : State) (f : CoreFault) : (s.takeFault f).st = s.st := rfl
@[simp] theorem State.takeFault_stack (s : State) (f : CoreFault) : (s.takeFault f).stack = s.stack := rfl
@[simp] theorem State.takeFault_mem (s : State) (f : CoreFault) : (s.takeFault f).mem = s.mem := rfl
@[simp] theorem State.takeFault_disp (s : State) (f : CoreFault) : (s.takeFault f).disp = s.disp := rfl
@[simp] theorem State.takeFault_kbd (s : State) (f : CoreFault) : (s.takeFault f).kbd = s.kbd := rfl
@[simp] theorem State.takeFault_mode (s : State) (f : CoreFault) : (s.takeFault f).mode = .faulted f := rfl
@[simp] theorem State.takeFault_waitDst (s : State) (f : CoreFault) : (s.takeFault f).waitDst = s.waitDst := rfl
@[simp] theorem State.takeFault_draws (s : State) (f : CoreFault) : (s.takeFault f).draws = s.draws := rfl

/-! ## applyTick -/

@[simp] theorem State.applyTick_cfg (s : State) (tick : Bool) : (s.applyTick tick).cfg = s.cfg := rfl
@[simp] theorem State.applyTick_v (s : State) (tick : Bool) : (s.applyTick tick).v = s.v := rfl
@[simp] theorem State.applyTick_pc (s : State) (tick : Bool) : (s.applyTick tick).pc = s.pc := rfl
@[simp] theorem State.applyTick_i (s : State) (tick : Bool) : (s.applyTick tick).i = s.i := rfl
@[simp] theorem State.applyTick_dt (s : State) (tick : Bool) : (s.applyTick tick).dt = tickTimer tick s.dt := rfl
@[simp] theorem State.applyTick_stack (s : State) (tick : Bool) : (s.applyTick tick).stack = s.stack := rfl
@[simp] theorem State.applyTick_mem (s : State) (tick : Bool) : (s.applyTick tick).mem = s.mem := rfl
@[simp] theorem State.applyTick_disp (s : State) (tick : Bool) : (s.applyTick tick).disp = s.disp := rfl
@[simp] theorem State.applyTick_kbd (s : State) (tick : Bool) : (s.applyTick tick).kbd = s.kbd := rfl
@[simp] theorem State.applyTick_mode (s : State) (tick : Bool) : (s.applyTick tick).mode = s.mode := rfl
@[simp] theorem State.applyTick_waitDst (s : State) (tick : Bool) : (s.applyTick tick).waitDst = s.waitDst := rfl
@[simp] theorem State.applyTick_draws (s : State) (tick : Bool) : (s.applyTick tick).draws = s.draws := rfl

/-! ## beginStep -/

@[simp] theorem State.beginStep_cfg (s : State) : (s.beginStep).cfg = s.cfg := rfl
@[simp] theorem State.beginStep_v (s : State) : (s.beginStep).v = s.v := rfl
@[simp] theorem State.beginStep_pc (s : State) : (s.beginStep).pc = s.pc + 2#16 := rfl
@[simp] theorem State.beginStep_i (s : State) : (s.beginStep).i = s.i := rfl
@[simp] theorem State.beginStep_dt (s : State) : (s.beginStep).dt = tickTimer (Config.drawTick s.draws) s.dt := rfl
@[simp] theorem State.beginStep_stack (s : State) : (s.beginStep).stack = s.stack := rfl
@[simp] theorem State.beginStep_mem (s : State) : (s.beginStep).mem = s.mem := rfl
@[simp] theorem State.beginStep_disp (s : State) : (s.beginStep).disp = s.disp := rfl
@[simp] theorem State.beginStep_kbd (s : State) : (s.beginStep).kbd = s.kbd := rfl
@[simp] theorem State.beginStep_mode (s : State) : (s.beginStep).mode = s.mode := rfl
@[simp] theorem State.beginStep_waitDst (s : State) : (s.beginStep).waitDst = s.waitDst := rfl
@[simp] theorem State.beginStep_draws (s : State) : (s.beginStep).draws = s.draws := rfl

/-! ## skipIf, by cases of its condition -/

@[simp] theorem State.skipIf_true (s : State) : s.skipIf true = s.advancePc := rfl
@[simp] theorem State.skipIf_false (s : State) : s.skipIf false = s := rfl

theorem State.skipIf_eq (s : State) (c : Bool) : s.skipIf c = s.jumpTo (if c then s.pc + 2#16 else s.pc) := by
  cases c <;> rfl

@[simp] theorem State.skipIf_cfg (s : State) (c : Bool) : (s.skipIf c).cfg = s.cfg := by cases c <;> rfl
@[simp] theorem State.skipIf_v (s : State) (c : Bool) : (s.skipIf c).v = s.v := by cases c <;> rfl
@[simp] theorem State.skipIf_i (s : State) (c : Bool) : (s.skipIf c).i = s.i := by cases c <;> rfl
@[simp] theorem State.skipIf_dt (s : State) (c : Bool) : (s.skipIf c).dt = s.dt := by cases c <;> rfl
@[simp] theorem State.skipIf_st (s : State) (c : Bool) : (s.skipIf c).st = s.st := by cases c <;> rfl
@[simp] theorem State.skipIf_stack (s : State) (c : Bool) : (s.skipIf c).stack = s.stack := by cases c <;> rfl
@[simp] theorem State.skipIf_mem (s : State) (c : Bool) : (s.skipIf c).mem = s.mem := by cases c <;> rfl
@[simp] theorem State.skipIf_disp (s : State) (c : Bool) : (s.skipIf c).disp = s.disp := by cases c <;> rfl
@[simp] theorem State.skipIf_kbd (s : State) (c : Bool) : (s.skipIf c).kbd = s.kbd := by cases c <;> rfl
@[simp] theorem State.skipIf_mode (s : State) (c : Bool) : (s.skipIf c).mode = s.mode := by cases c <;> rfl
@[simp] theorem State.skipIf_waitDst (s : State) (c : Bool) : (s.skipIf c).waitDst = s.waitDst := by cases c <;> rfl
@[simp] theorem State.skipIf_draws (s : State) (c : Bool) : (s.skipIf c).draws = s.draws := by cases c <;> rfl
@[simp] theorem State.skipIf_pc (s : State) (c : Bool) : (s.skipIf c).pc = if c then s.pc + 2#16 else s.pc := by
  cases c <;> rfl

/-! ## writeBytes -/

@[simp] theorem State.writeBytes_cfg (s : State) (a : Nat) (bs : List Byte) : (s.writeBytes a bs).cfg = s.cfg := by
  induction bs generalizing s a with
  | nil => rfl
  | cons b bs ih => simp [State.writeBytes, ih]

@[simp] theorem State.writeBytes_v (s : State) (a : Nat) (bs : List Byte) : (s.writeBytes a bs).v = s.v := by
  induction bs generalizing s a with
  | nil => rfl
  | cons b bs ih => simp [State.writeBytes, ih]

@[simp] theorem State.writeBytes_pc (s : State) (a : Nat) (bs : List Byte) : (s.writeBytes a bs).pc = s.pc := by
  induction bs generalizing s a with
  | nil => rfl
  | cons b bs ih => simp [State.writeBytes, ih]

@[simp] theorem State.writeBytes_i (s : State) (a : Nat) (bs : List Byte) : (s.writeBytes a bs).i = s.i := by
  induction bs generalizing s a with
  | nil => rfl
  | cons b bs ih => simp [State.writeBytes, ih]

@[simp] theorem State.writeBytes_dt (s : State) (a : Nat) (bs : List Byte) : (s.writeBytes a bs).dt = s.dt := by
  induction bs generalizing s a with
  | nil => rfl
  | cons b bs ih => simp [State.writeBytes, ih]

@[simp] theorem State.writeBytes_st (s : State) (a : Nat) (bs : List Byte) : (s.writeBytes a bs).st = s.st := by
  induction bs generalizing s a with
  | nil => rfl
  | cons b bs ih => simp [State.writeBytes, ih]

@[simp] theorem State.writeBytes_stack (s : State) (a : Nat) (bs : List Byte) : (s.writeBytes a bs).stack = s.stack := by
  induction bs generalizing s a with
  | nil => rfl
  | cons b bs ih => simp [State.writeBytes, ih]

@[simp] theorem State.writeBytes_disp (s : State) (a : Nat) (bs : List Byte) : (s.writeBytes a bs).disp = s.disp := by
  induction bs generalizing s a with
  | nil => rfl
  | cons b bs ih => simp [State.writeBytes, ih]

@[simp] theorem State.writeBytes_kbd (s : State) (a : Nat) (bs : List Byte) : (s.writeBytes a bs).kbd = s.kbd := by
  induction bs generalizing s a with
  | nil => rfl
  | cons b bs ih => simp [State.writeBytes, ih]

@[simp] theorem State.writeBytes_mode (s : State) (a : Nat) (bs : List Byte) : (s.writeBytes a bs).mode = s.mode := by
  induction bs generalizing s a with
  | nil => rfl
  | cons b bs ih => simp [State.writeBytes, ih]

@[simp] theorem State.writeBytes_waitDst (s : State) (a : Nat) (bs : List Byte) : (s.writeBytes a bs).waitDst = s.waitDst := by
  induction bs generalizing s a with
  | nil => rfl
  | cons b bs ih => simp [State.writeBytes, ih]

@[simp] theorem State.writeBytes_draws (s : State) (a : Nat) (bs : List Byte) : (s.writeBytes a bs).draws = s.draws := by
  induction bs generalizing s a with
  | nil => rfl
  | cons b bs ih => simp [State.writeBytes, ih]

/-! ## loadRegs -/

@[simp] theorem State.loadRegs_cfg (s : State) (n : Nat) : (s.loadRegs n).cfg = s.cfg := by
  induction n with
  | zero => rfl
  | succ n ih => simp [State.loadRegs, ih]

@[simp] theorem State.loadRegs_pc (s : State) (n : Nat) : (s.loadRegs n).pc = s.pc := by
  induction n with
  | zero => rfl
  | succ n ih => simp [State.loadRegs, ih]

@[simp] theorem State.loadRegs_i (s : State) (n : Nat) : (s.loadRegs n).i = s.i := by
  induction n with
  | zero => rfl
  | succ n ih => simp [State.loadRegs, ih]

@[simp] theorem State.loadRegs_dt (s : State) (n : Nat) : (s.loadRegs n).dt = s.dt := by
  induction n with
  | zero => rfl
  | succ n ih => simp [State.loadRegs, ih]

@[simp] theorem State.loadRegs_st (s : State) (n : Nat) : (s.loadRegs n).st = s.st := by
  induction n with
  | zero => rfl
  | succ n ih => simp [State.loadRegs, ih]

@[simp] theorem State.loadRegs_stack (s : State) (n : Nat) : (s.loadRegs n).stack = s.stack := by
  induction n with
  | zero => rfl
  | succ n ih => simp [State.loadRegs, ih]

@[simp] theorem State.loadRegs_mem (s : State) (n : Nat) : (s.loadRegs n).mem = s.mem := by
  induction n with
  | zero => rfl
  | succ n ih => simp [State.loadRegs, ih]

@[simp] theorem State.loadRegs_disp (s : State) (n : Nat) : (s.loadRegs n).disp = s.disp := by
  induction n with
  | zero => rfl
  | succ n ih => simp [State.loadRegs, ih]

@[simp] theorem State.loadRegs_kbd (s : State) (n : Nat) : (s.loadRegs n).kbd = s.kbd := by
  induction n with
  | zero => rfl
  | succ n ih => simp [State.loadRegs, ih]

@[simp] theorem State.loadRegs_mode (s : State) (n : Nat) : (s.loadRegs n).mode = s.mode := by
  induction n with
  | zero => rfl
  | succ n ih => simp [State.loadRegs, ih]

@[simp] theorem State.loadRegs_waitDst (s : State) (n : Nat) : (s.loadRegs n).waitDst = s.waitDst := by
  induction n with
  | zero => rfl
  | succ n ih => simp [State.loadRegs, ih]

@[simp] theorem State.loadRegs_draws (s : State) (n : Nat) : (s.loadRegs n).draws = s.draws := by
  induction n with
  | zero => rfl
  | succ n ih => simp [State.loadRegs, ih]

/-! ## writeFlagged -/

@[simp] theorem State.writeFlagged_cfg (s : State) (x : Reg) (r : Byte) (c : Bool) :
    (s.writeFlagged x r c).cfg = s.cfg := by
  unfold State.writeFlagged; split <;> rfl

@[simp] theorem State.writeFlagged_pc (s : State) (x : Reg) (r : Byte) (c : Bool) :
    (s.writeFlagged x r c).pc = s.pc := by
  unfold State.writeFlagged; split <;> rfl

@[simp] theorem State.writeFlagged_i (s : State) (x : Reg) (r : Byte) (c : Bool) :
    (s.writeFlagged x r c).i = s.i := by
  unfold State.writeFlagged; split <;> rfl

@[simp] theorem State.writeFlagged_dt (s : State) (x : Reg) (r : Byte) (c : Bool) :
    (s.writeFlagged x r c).dt = s.dt := by
  unfold State.writeFlagged; split <;> rfl

@[simp] theorem State.writeFlagged_st (s : State) (x : Reg) (r : Byte) (c : Bool) :
    (s.writeFlagged x r c).st = s.st := by
  unfold State.writeFlagged; split <;> rfl

@[simp] theorem State.writeFlagged_stack (s : State) (x : Reg) (r : Byte) (c : Bool) :
    (s.writeFlagged x r c).stack = s.stack := by
  unfold State.writeFlagged; split <;> rfl

@[simp] theorem State.writeFlagged_mem (s : State) (x : Reg) (r : Byte) (c : Bool) :
    (s.writeFlagged x r c).mem = s.mem := by
  unfold State.writeFlagged; split <;> rfl

@[simp] theorem State.writeFlagged_disp (s : State) (x : Reg) (r : Byte) (c : Bool) :
    (s.writeFlagged x r c).disp = s.disp := by
  unfold State.writeFlagged; split <;> rfl

@[simp] theorem State.writeFlagged_kbd (s : State) (x : Reg) (r : Byte) (c : Bool) :
    (s.writeFlagged x r c).kbd = s.kbd := by
  unfold State.writeFlagged; split <;> rfl

@[simp] theorem State.writeFlagged_mode (s : State) (x : Reg) (r : Byte) (c : Bool) :
    (s.writeFlagged x r c).mode = s.mode := by
  unfold State.writeFlagged; split <;> rfl

@[simp] theorem State.writeFlagged_waitDst (s : State) (x : Reg) (r : Byte) (c : Bool) :
    (s.writeFlagged x r c).waitDst = s.waitDst := by
  unfold State.writeFlagged; split <;> rfl

@[simp] theorem State.writeFlagged_draws (s : State) (x : Reg) (r : Byte) (c : Bool) :
    (s.writeFlagged x r c).draws = s.draws := by
  unfold State.writeFlagged; split <;> rfl


end Sys2Proof.Machine
end

