-- ==== Sys2Proof/Laws/Memory.lean ====
section
/-! SUPPORT. The laws of memory: a read after a write, the canonical form kept by every write, equal reads of canonical
memories mean equal memories. -/

namespace Sys2Proof.Machine

/-! ## Lookup -/

@[simp] theorem Memory.lookup_nil (a : Nat) : Memory.lookup [] a = none := rfl

theorem Memory.lookup_cons (k : Nat) (b : Byte) (m : Memory) (a : Nat) :
    Memory.lookup ((k, b) :: m) a = if k = a then some b else Memory.lookup m a := rfl

theorem Memory.lookup_insert (m : Memory) (a : Nat) (b : Byte) (c : Nat) :
    Memory.lookup (Memory.insert a b m) c = if c = a then some b else Memory.lookup m c := by
  induction m with
  | nil => simp only [Memory.insert, Memory.lookup_cons, Memory.lookup_nil, eq_comm]
  | cons e m ih =>
    obtain ⟨k, d⟩ := e
    simp only [Memory.insert]
    split
    · simp only [Memory.lookup_cons, eq_comm (a := a)]
    · split
      · next h => subst h; simp only [Memory.lookup_cons, eq_comm (a := a)]; split <;> rfl
      · next h1 h2 =>
        simp only [Memory.lookup_cons, ih]
        split
        · next h => subst h; rw [if_neg (fun h => h2 h.symm)]
        · rfl

theorem Memory.lookup_erase (m : Memory) (a c : Nat) :
    Memory.lookup (Memory.erase a m) c = if c = a then none else Memory.lookup m c := by
  induction m with
  | nil => simp [Memory.erase]
  | cons e m ih =>
    obtain ⟨k, d⟩ := e
    simp only [Memory.erase]
    split
    · next h =>
      subst h
      rw [ih, Memory.lookup_cons]
      by_cases hc : c = k
      · rw [if_pos hc, if_pos hc]
      · rw [if_neg hc, if_neg hc, if_neg (Ne.symm hc)]
    · next h =>
      simp only [Memory.lookup_cons, ih]
      split
      · next h' => subst h'; rw [if_neg h]
      · rfl

/-- A read after a write: the byte written at its address, the old byte everywhere else. -/
theorem Memory.read_write (base : Nat → Byte) (m : Memory) (a : Nat) (b : Byte) (c : Nat) :
    Memory.read base (Memory.write base m a b) c = if c = a then b else Memory.read base m c := by
  unfold Memory.read Memory.write
  split
  · next h => rw [Memory.lookup_erase]; split <;> simp_all
  · rw [Memory.lookup_insert]; split <;> simp_all

/-! ## The canonical form -/

theorem Memory.wf_cons (base : Nat → Byte) (k : Nat) (c : Byte) (m : Memory) :
    Memory.wf base ((k, c) :: m) = true ↔
      k < 4096 ∧ c ≠ base k ∧ (∀ e ∈ m, k < e.1) ∧ Memory.wf base m = true := by
  simp [Memory.wf, and_assoc]

theorem Memory.mem_insert {m : Memory} {a : Nat} {b : Byte} {e : Host.Cell} (h : e ∈ Memory.insert a b m) :
    e = (a, b) ∨ e ∈ m := by
  induction m with
  | nil => simpa [Memory.insert] using h
  | cons f m ih =>
    obtain ⟨k, c⟩ := f
    simp only [Memory.insert] at h
    split at h
    · simpa using h
    · split at h
      · rcases List.mem_cons.1 h with h | h <;> simp [h]
      · rcases List.mem_cons.1 h with h | h
        · simp [h]
        · rcases ih h with h | h <;> simp [h]

theorem Memory.mem_erase {m : Memory} {a : Nat} {e : Host.Cell} (h : e ∈ Memory.erase a m) : e ∈ m := by
  induction m with
  | nil => simp [Memory.erase] at h
  | cons f m ih =>
    obtain ⟨k, c⟩ := f
    simp only [Memory.erase] at h
    split at h
    · exact List.mem_cons_of_mem _ (ih h)
    · rcases List.mem_cons.1 h with h | h
      · simp [h]
      · exact List.mem_cons_of_mem _ (ih h)

theorem Memory.wf_insert {base : Nat → Byte} {m : Memory} {a : Nat} {b : Byte} (ha : a < 4096) (hb : b ≠ base a)
    (h : Memory.wf base m = true) : Memory.wf base (Memory.insert a b m) = true := by
  induction m with
  | nil => simp [Memory.insert, Memory.wf, ha, hb]
  | cons f m ih =>
    obtain ⟨k, c⟩ := f
    obtain ⟨hk, hc, hlt, hm⟩ := (Memory.wf_cons ..).1 h
    simp only [Memory.insert]
    split
    · next hak =>
      refine (Memory.wf_cons ..).2 ⟨ha, hb, fun e he => ?_, h⟩
      rcases List.mem_cons.1 he with rfl | he
      · exact hak
      · exact hak.trans (hlt e he)
    · split
      · next hak => subst hak; exact (Memory.wf_cons ..).2 ⟨ha, hb, hlt, hm⟩
      · next h1 h2 =>
        refine (Memory.wf_cons ..).2 ⟨hk, hc, fun e he => ?_, ih hm⟩
        rcases Memory.mem_insert he with rfl | he
        · show k < a; omega
        · exact hlt e he

theorem Memory.wf_erase {base : Nat → Byte} {m : Memory} (a : Nat) (h : Memory.wf base m = true) :
    Memory.wf base (Memory.erase a m) = true := by
  induction m with
  | nil => rfl
  | cons f m ih =>
    obtain ⟨k, c⟩ := f
    obtain ⟨hk, hc, hlt, hm⟩ := (Memory.wf_cons ..).1 h
    simp only [Memory.erase]
    split
    · exact ih hm
    · exact (Memory.wf_cons ..).2 ⟨hk, hc, fun e he => hlt e (Memory.mem_erase he), ih hm⟩

/-- Every write keeps the canonical form. -/
theorem Memory.wf_write {base : Nat → Byte} {m : Memory} {a : Nat} (b : Byte) (ha : a < 4096)
    (h : Memory.wf base m = true) : Memory.wf base (Memory.write base m a b) = true := by
  unfold Memory.write
  split
  · exact Memory.wf_erase a h
  · next hb => exact Memory.wf_insert ha hb h

theorem Memory.lookup_none_of_lt {m : Memory} {a : Nat} (h : ∀ e ∈ m, a < e.1) : Memory.lookup m a = none := by
  induction m with
  | nil => rfl
  | cons f m ih =>
    obtain ⟨k, c⟩ := f
    rw [Memory.lookup_cons, if_neg (Nat.ne_of_gt (h (k, c) (by simp))), ih fun e he => h e (by simp [he])]

/-- Every listed address of a canonical memory is in the address space, so nothing is listed from 4096 on. -/
theorem Memory.lookup_none_of_ge {base : Nat → Byte} {m : Memory} {a : Nat} (h : Memory.wf base m = true)
    (ha : 4096 ≤ a) : Memory.lookup m a = none := by
  induction m with
  | nil => rfl
  | cons f m ih =>
    obtain ⟨k, c⟩ := f
    obtain ⟨hk, -, -, hm⟩ := (Memory.wf_cons ..).1 h
    rw [Memory.lookup_cons, if_neg (by omega), ih hm]

theorem Memory.read_cons_self (base : Nat → Byte) (k : Nat) (c : Byte) (m : Memory) :
    Memory.read base ((k, c) :: m) k = c := by
  simp [Memory.read, Memory.lookup_cons]

theorem Memory.read_cons_of_ne (base : Nat → Byte) {k a : Nat} (c : Byte) (m : Memory) (h : k ≠ a) :
    Memory.read base ((k, c) :: m) a = Memory.read base m a := by
  simp [Memory.read, Memory.lookup_cons, h]

theorem Memory.read_of_lt (base : Nat → Byte) {m : Memory} {a : Nat} (h : ∀ e ∈ m, a < e.1) :
    Memory.read base m a = base a := by
  simp [Memory.read, Memory.lookup_none_of_lt h]

/-- Canonical memories that read the same are the same list. -/
theorem Memory.eq_of_read_eq {base : Nat → Byte} {m m' : Memory} (h : Memory.wf base m = true)
    (h' : Memory.wf base m' = true) (hr : ∀ a, Memory.read base m a = Memory.read base m' a) : m = m' := by
  induction m generalizing m' with
  | nil =>
    cases m' with
    | nil => rfl
    | cons e m' =>
      obtain ⟨-, hc, -, -⟩ := (Memory.wf_cons ..).1 h'
      exact absurd ((Memory.read_cons_self base ..).symm.trans (hr e.1).symm) hc
  | cons e m ih =>
    obtain ⟨k, c⟩ := e
    obtain ⟨-, hc, hlt, hm⟩ := (Memory.wf_cons ..).1 h
    cases m' with
    | nil => exact absurd ((Memory.read_cons_self base ..).symm.trans (hr k)) hc
    | cons e' m' =>
      obtain ⟨k', c'⟩ := e'
      obtain ⟨-, hc', hlt', hm'⟩ := (Memory.wf_cons ..).1 h'
      have below {k c m k' c' m'} (hk : k < k') (hlt' : ∀ e ∈ (m' : Memory), k' < e.1)
          (hr : Memory.read base ((k, c) :: m) k = Memory.read base ((k', c') :: m') k) : c = base k := by
        rw [Memory.read_cons_self, Memory.read_of_lt] at hr
        · exact hr
        · intro e he
          rcases List.mem_cons.1 he with rfl | he
          · exact hk
          · exact hk.trans (hlt' e he)
      rcases Nat.lt_trichotomy k k' with hk | rfl | hk
      · exact absurd (below hk hlt' (hr k)) hc
      · have hcc : c = c' := by simpa [Memory.read_cons_self] using hr k
        subst hcc
        rw [ih hm hm' fun a => ?_]
        by_cases ha : k = a
        · subst ha; rw [Memory.read_of_lt base hlt, Memory.read_of_lt base hlt']
        · simpa [Memory.read_cons_of_ne base c _ ha] using hr a
      · exact absurd (below hk hlt (hr k').symm) hc'

end Sys2Proof.Machine
end

