-- ==== Sys2Proof/Laws/Ops.lean ====
section
/-! SUPPORT. One lemma for each shared operation, saying everything it can do: register and byte reads after writes, runs of
bytes, the display and drawing, the timers, the stack, fetch. -/

namespace Sys2Proof.Machine

/-! ## Reads depend on their own part only -/

theorem State.readV_congr {s t : State} (h : t.v = s.v) (r : Reg) : t.readV r = s.readV r := by
  unfold State.readV; simp [h]

theorem State.readByte_congr {s t : State} (hc : t.cfg = s.cfg) (hm : t.mem = s.mem) (a : Nat) :
    t.readByte a = s.readByte a := by
  unfold State.readByte; rw [hc, hm]

theorem State.fetchWord_congr {s t : State} (hc : t.cfg = s.cfg) (hm : t.mem = s.mem) (hp : t.pc = s.pc) :
    t.fetchWord = s.fetchWord := by
  unfold State.fetchWord; rw [State.readByte_congr hc hm, State.readByte_congr hc hm, hp]

theorem State.decodeNext_congr {s t : State} (hc : t.cfg = s.cfg) (hm : t.mem = s.mem) (hp : t.pc = s.pc) :
    t.decodeNext = s.decodeNext := by
  unfold State.decodeNext; rw [State.fetchWord_congr hc hm hp, hc]

/-! ## Registers -/

/-- `V[r]` after `V[x] <- b`. -/
theorem State.readV_writeV (s : State) (x : Reg) (b : Byte) (r : Reg) :
    (s.writeV x b).readV r = if r = x then b else s.readV r := by
  simp only [State.readV, State.writeV, Vector.getElem_set]
  by_cases h : r = x
  · simp [h]
  · rw [if_neg h, if_neg fun hx => h (BitVec.eq_of_toNat_eq hx.symm)]

@[simp] theorem State.readV_writeV_self (s : State) (x : Reg) (b : Byte) : (s.writeV x b).readV x = b := by
  simp [State.readV_writeV]

theorem State.readV_writeV_of_ne (s : State) {x r : Reg} (b : Byte) (h : r ≠ x) :
    (s.writeV x b).readV r = s.readV r := by
  simp [State.readV_writeV, h]

/-- Every register after flag and result are written, for either order (R132). -/
theorem State.readV_writeFlagged (s : State) (x : Reg) (result : Byte) (flag : Bool) (r : Reg) :
    (s.writeFlagged x result flag).readV r =
      if r = x ∧ (x = vf → s.cfg.vfDestOrder = .resultLast) then result
      else if r = vf then flagByte flag
      else s.readV r := by
  unfold State.writeFlagged
  split
  · next h => simp [State.readV_writeV, h]
  · next h =>
    simp only [State.readV_writeV, h, reduceCtorEq, imp_false]
    by_cases hr : r = vf
    · subst hr; simp +contextual [eq_comm]
    · by_cases hx : r = x
      · subst hx; simp [hr]
      · simp [hx]

/-- Every register after load-regs of `n` registers: the first `n` hold the bytes at I (R175). -/
theorem State.readV_loadRegs (s : State) (n : Nat) (hn : n ≤ 16) (r : Reg) :
    (s.loadRegs n).readV r = if r.toNat < n then s.readByte (s.i.toNat + r.toNat) else s.readV r := by
  induction n with
  | zero => simp [State.loadRegs]
  | succ n ih =>
    simp only [State.loadRegs, State.readV_writeV, ih (by omega)]
    have hr : r = BitVec.ofNat 4 n ↔ r.toNat = n := by
      rw [← BitVec.toNat_inj, BitVec.toNat_ofNat, Nat.mod_eq_of_lt (by omega)]
    by_cases h : r.toNat = n
    · rw [if_pos (hr.2 h), if_pos (by omega), h]
    · rw [if_neg (mt hr.1 h)]
      split <;> split <;> first | rfl | omega

/-! ## Memory -/

theorem reduceAddr_lt (a : Nat) : reduceAddr a < 4096 := Nat.mod_lt _ (by decide)

/-- `MemRead` after `MemWrite` (R51). -/
theorem State.readByte_writeByte (s : State) (a : Nat) (b : Byte) (c : Nat) :
    (s.writeByte a b).readByte c = if reduceAddr c = reduceAddr a then b else s.readByte c := by
  simp only [State.readByte, State.writeByte, Memory.read_write]

/-- A byte outside a run of writes reads as before. -/
theorem State.readByte_writeBytes_of_not_in (s : State) (a : Nat) (bs : List Byte) (c : Nat)
    (h : ¬ InBytes a bs.length c) : (s.writeBytes a bs).readByte c = s.readByte c := by
  induction bs generalizing s a with
  | nil => rfl
  | cons b bs ih =>
    rw [State.writeBytes, ih, State.readByte_writeByte, if_neg]
    · exact fun hc => h ⟨0, by simp, hc⟩
    · rintro ⟨j, hj, hc⟩
      exact h ⟨j + 1, by simpa using hj, by rw [hc]; congr 1; omega⟩

/-- Byte `j` of a run of writes no longer than memory reads as the `j`th byte written. -/
theorem State.readByte_writeBytes_at (s : State) (a : Nat) (bs : List Byte) (hlen : bs.length ≤ 4096) (j : Nat)
    (hj : j < bs.length) : (s.writeBytes a bs).readByte (a + j) = bs[j] := by
  induction bs generalizing s a j with
  | nil => simp at hj
  | cons b bs ih =>
    simp only [List.length_cons] at hlen hj
    rw [State.writeBytes]
    cases j with
    | zero =>
      rw [State.readByte_writeBytes_of_not_in, State.readByte_writeByte, if_pos (by simp)]
      · rfl
      · rintro ⟨i, hi, hc⟩
        simp only [reduceAddr, memSize] at hc
        omega
    | succ j =>
      have := ih (s.writeByte a b) (a + 1) (by omega) j (by omega)
      rw [← Nat.add_assoc, Nat.add_right_comm, this]
      rfl

/-- A byte write keeps the canonical form. -/
theorem State.memWf_writeByte {s : State} (h : s.MemWf) (a : Nat) (b : Byte) : (s.writeByte a b).MemWf :=
  Memory.wf_write b (reduceAddr_lt a) h

/-- A run of byte writes keeps the canonical form. -/
theorem State.memWf_writeBytes {s : State} (h : s.MemWf) (a : Nat) (bs : List Byte) : (s.writeBytes a bs).MemWf := by
  induction bs generalizing s a with
  | nil => exact h
  | cons b bs ih => exact ih (State.memWf_writeByte h a b) (a + 1)

theorem State.memWf_congr {s t : State} (hc : t.cfg = s.cfg) (hm : t.mem = s.mem) (h : s.MemWf) : t.MemWf := by
  unfold State.MemWf; rw [hc, hm]; exact h

/-- The two bytes of a word, read big-endian, are the word (R52). -/
theorem wordOfBytes_highByte_lowByte (w : Word) : wordOfBytes (highByte w) (lowByte w) = w := by
  apply BitVec.eq_of_getLsbD_eq
  intro j hj
  simp only [wordOfBytes, highByte, lowByte, BitVec.getLsbD_append, BitVec.getLsbD_extractLsb']
  by_cases h : j < 8
  · simp [h]
  · simp only [h, if_false]
    rw [show 8 + (j - 8) = j by omega]
    simp [show j - 8 < 8 by omega]

/-- The fetch reads back the word written for it. -/
theorem State.fetchWord_writeFetchWord (s : State) (w : Word) : (s.writeFetchWord w).fetchWord = w := by
  have h0 := State.readByte_writeBytes_at s s.pc.toNat [highByte w, lowByte w] (by simp) 0 (by simp)
  have h1 := State.readByte_writeBytes_at s s.pc.toNat [highByte w, lowByte w] (by simp) 1 (by simp)
  simp only [State.fetchWord, State.writeFetchWord, State.writeBytes_pc]
  rw [Nat.add_zero] at h0
  rw [h0, h1]
  exact wordOfBytes_highByte_lowByte w

/-! ## Timers -/

/-- A timer counts down to zero and stays there (R193). -/
theorem toNat_tickTimer (tick : Bool) (t : Byte) : (tickTimer tick t).toNat = if tick then t.toNat - 1 else t.toNat := by
  unfold tickTimer
  by_cases h : t = 0#8
  · subst h; cases tick <;> rfl
  · have : t.toNat ≠ 0 := fun h0 => h (BitVec.eq_of_toNat_eq h0)
    cases tick
    · simp [h]
    · simp only [h, if_false, if_true]
      have := t.isLt
      rw [BitVec.toNat_sub]
      simp only [BitVec.toNat_ofNat]
      omega

/-! ## The stack -/

theorem State.pop_nil {s : State} (k : Word → State → State) (h : s.stack = []) :
    s.pop k = s.takeFault (.precondition .stackUnderflow) := by
  unfold State.pop; rw [h]

theorem State.pop_cons {s : State} (k : Word → State → State) {a : Word} {rest : List Word} (h : s.stack = a :: rest) :
    s.pop k = k a { s with stack := rest } := by
  unfold State.pop; rw [h]

theorem State.stackFull_iff (s : State) : s.stackFull = true ↔ s.cfg.stackDepth = some s.stack.length := by
  unfold State.stackFull
  split
  · next h => simp [h]
  · next d h => rw [h, beq_iff_eq, Option.some_inj, eq_comm]

theorem State.push_full {s : State} (a : Word) (k : State → State) (h : s.stackFull = true) :
    s.push a k = s.takeFault .stackOverflow := by
  unfold State.push; rw [if_pos h]

theorem State.push_notFull {s : State} (a : Word) (k : State → State) (h : ¬ s.stackFull = true) :
    s.push a k = k { s with stack := a :: s.stack } := by
  unfold State.push; rw [if_neg h]

end Sys2Proof.Machine
end

