-- ==== Sys2Proof/Laws/Display.lean ====
section
/-! SUPPORT. The display and drawing: a cell after a toggle, after a sprite row, after a whole sprite; when a draw
collides. -/

namespace Sys2Proof.Machine

@[simp] theorem Display.cell_blank (k : Nat) : Display.cell Display.blank k = false := by
  unfold Display.cell Display.blank; split <;> simp

theorem Display.cell_of_ge (d : Display) {k : Nat} (h : 2048 ≤ k) : Display.cell d k = false := by
  unfold Display.cell; rw [dif_neg (by omega)]

/-- A toggle turns its own cell over and no other. -/
theorem Display.cell_toggle (d : Display) {k : Nat} (hk : k < 2048) (j : Nat) :
    Display.cell (Display.toggle d k) j = if j = k then !Display.cell d j else Display.cell d j := by
  have hk' : k / 64 < 32 := by omega
  simp only [Display.toggle, dif_pos hk', Display.cell]
  by_cases hj : j / 64 < 32
  · simp only [dif_pos hj, Vector.getElem_set]
    by_cases hr : k / 64 = j / 64
    · simp only [hr, if_true, BitVec.getLsbD_xor, BitVec.getLsbD_twoPow]
      by_cases hjk : j = k
      · subst hjk; simp [Nat.mod_lt]
      · have : ¬ k % 64 = j % 64 := by omega
        simp [hjk, this]
    · have hjk : ¬ j = k := by rintro rfl; exact hr rfl
      simp [hr, hjk]
  · have hjk : ¬ j = k := by omega
    simp [dif_neg hj, hjk]

/-- Displays with the same cells are equal. -/
theorem Display.ext_cell {d e : Display} (h : ∀ k, Display.cell d k = Display.cell e k) : d = e := by
  apply Vector.ext
  intro r hr
  apply BitVec.eq_of_getLsbD_eq
  intro c hc
  have := h (c + r * 64)
  have h1 : (c + r * 64) / 64 = r := by omega
  have h2 : (c + r * 64) % 64 = c := by omega
  simpa [Display.cell, h1, h2, hr] using this

/-- Some drawn bit of 1 falls on index `k`: of the first `n` columns of a row that starts at index `o`. -/
def RowLights (row : Byte) (o n k : Nat) : Prop := ∃ c, c < n ∧ k = o + c ∧ spriteBit row c = true

/-- A sprite row: a lit cell turns over, every other cell stays; the collision bit is set exactly by a lit cell that was
on. -/
theorem drawRow_spec (row : Byte) (o : Nat) (acc : DrawAcc) (n : Nat) :
    (∀ k, k < 2048 → RowLights row o n k → Display.cell (drawRow row o acc n).1 k = !Display.cell acc.1 k) ∧
    (∀ k, ¬ (k < 2048 ∧ RowLights row o n k) → Display.cell (drawRow row o acc n).1 k = Display.cell acc.1 k) ∧
    ((drawRow row o acc n).2 = true ↔
      acc.2 = true ∨ ∃ k, k < 2048 ∧ RowLights row o n k ∧ Display.cell acc.1 k = true) := by
  induction n with
  | zero =>
    have none (k : Nat) : ¬ RowLights row o 0 k := by rintro ⟨c, hc, -⟩; omega
    exact ⟨fun k _ h => absurd h (none k), fun k _ => rfl, ⟨Or.inl, fun h => h.elim id fun ⟨k, _, h, _⟩ => absurd h (none k)⟩⟩
  | succ n ih =>
    obtain ⟨ihOn, ihOff, ihColl⟩ := ih
    have lights (k : Nat) : RowLights row o (n + 1) k ↔ RowLights row o n k ∨ (k = o + n ∧ spriteBit row n = true) := by
      constructor
      · rintro ⟨c, hc, hk, hb⟩
        rcases Nat.lt_succ_iff_lt_or_eq.1 hc with h | rfl
        · exact .inl ⟨c, h, hk, hb⟩
        · exact .inr ⟨hk, hb⟩
      · rintro (⟨c, hc, hk, hb⟩ | ⟨hk, hb⟩)
        · exact ⟨c, by omega, hk, hb⟩
        · exact ⟨n, by omega, hk, hb⟩
    have fresh : ¬ RowLights row o n (o + n) := by rintro ⟨c, hc, hk, -⟩; omega
    have keep := ihOff (o + n) (fun h => fresh h.2)
    simp only [drawRow, drawBit]
    by_cases hdrop : 2047 < o + n
    · simp only [hdrop, if_true]
      have same (k : Nat) (hk : k < 2048) : RowLights row o (n + 1) k ↔ RowLights row o n k := by
        rw [lights]; exact ⟨fun h => h.elim id fun h => by omega, Or.inl⟩
      refine ⟨fun k hk h => ihOn k hk ((same k hk).1 h), fun k h => ihOff k fun ⟨hk, h'⟩ => h ⟨hk, (same k hk).2 h'⟩, ?_⟩
      rw [ihColl]
      exact or_congr_right (exists_congr fun k => and_congr_right fun hk => by rw [same k hk])
    · simp only [hdrop, if_false]
      by_cases hb : spriteBit row n = true
      · simp only [hb, if_true]
        refine ⟨fun k hk h => ?_, fun k h => ?_, ?_⟩
        · rw [Display.cell_toggle _ (by omega)]
          by_cases hkn : k = o + n
          · subst hkn; rw [if_pos rfl, keep]
          · rw [if_neg hkn]
            exact ihOn k hk (((lights k).1 h).resolve_right fun h => hkn h.1)
        · rw [Display.cell_toggle _ (by omega), if_neg]
          · exact ihOff k fun ⟨hk, h'⟩ => h ⟨hk, (lights k).2 (.inl h')⟩
          · rintro rfl; exact h ⟨by omega, (lights _).2 (.inr ⟨rfl, hb⟩)⟩
        · rw [Bool.or_eq_true, ihColl, keep, or_assoc]
          refine or_congr_right ⟨?_, ?_⟩
          · rintro (⟨k, hk, hl, hc⟩ | hc)
            · exact ⟨k, hk, (lights k).2 (.inl hl), hc⟩
            · exact ⟨o + n, by omega, (lights _).2 (.inr ⟨rfl, hb⟩), hc⟩
          · rintro ⟨k, hk, hl, hc⟩
            rcases (lights k).1 hl with hl | ⟨rfl, -⟩
            · exact .inl ⟨k, hk, hl, hc⟩
            · exact .inr hc
      · simp only [hb]
        have same (k : Nat) : RowLights row o (n + 1) k ↔ RowLights row o n k := by
          rw [lights]; exact ⟨fun h => h.elim id fun h => absurd h.2 hb, Or.inl⟩
        refine ⟨fun k hk h => ihOn k hk ((same k).1 h), fun k h => ihOff k fun ⟨hk, h'⟩ => h ⟨hk, (same k).2 h'⟩, ?_⟩
        simp only [same]
        exact ihColl

/-- Some bit of 1 of the first `n` rows of a sprite falls on index `k`; the top left corner is at index `o`. -/
def RowsLight (rows : Nat → Byte) (o n k : Nat) : Prop := ∃ r, r < n ∧ RowLights (rows r) (o + r * 64) 8 k

/-- A whole sprite: a lit cell turns over once, every other cell stays; the collision bit is set exactly by a lit cell
that was on (R151 to R153). No two sprite bits fall on the same cell (R58). -/
theorem drawRows_spec (rows : Nat → Byte) (o : Nat) (acc : DrawAcc) (n : Nat) :
    (∀ k, k < 2048 → RowsLight rows o n k → Display.cell (drawRows rows o acc n).1 k = !Display.cell acc.1 k) ∧
    (∀ k, ¬ (k < 2048 ∧ RowsLight rows o n k) → Display.cell (drawRows rows o acc n).1 k = Display.cell acc.1 k) ∧
    ((drawRows rows o acc n).2 = true ↔
      acc.2 = true ∨ ∃ k, k < 2048 ∧ RowsLight rows o n k ∧ Display.cell acc.1 k = true) := by
  induction n with
  | zero =>
    have none (k : Nat) : ¬ RowsLight rows o 0 k := by rintro ⟨r, hr, -⟩; omega
    exact ⟨fun k _ h => absurd h (none k), fun k _ => rfl, ⟨Or.inl, fun h => h.elim id fun ⟨k, _, h, _⟩ => absurd h (none k)⟩⟩
  | succ n ih =>
    obtain ⟨ihOn, ihOff, ihColl⟩ := ih
    obtain ⟨rowOn, rowOff, rowColl⟩ := drawRow_spec (rows n) (o + n * 64) (drawRows rows o acc n) 8
    have lights (k : Nat) :
        RowsLight rows o (n + 1) k ↔ RowsLight rows o n k ∨ RowLights (rows n) (o + n * 64) 8 k := by
      constructor
      · rintro ⟨r, hr, h⟩
        rcases Nat.lt_succ_iff_lt_or_eq.1 hr with hr | rfl
        · exact .inl ⟨r, hr, h⟩
        · exact .inr h
      · rintro (⟨r, hr, h⟩ | h)
        · exact ⟨r, by omega, h⟩
        · exact ⟨n, by omega, h⟩
    have apart (k : Nat) : RowLights (rows n) (o + n * 64) 8 k → ¬ RowsLight rows o n k := by
      rintro ⟨c, hc, hk, -⟩ ⟨r, hr, c', hc', hk', -⟩; omega
    simp only [drawRows]
    refine ⟨fun k hk h => ?_, fun k h => ?_, ?_⟩
    · by_cases hn : RowLights (rows n) (o + n * 64) 8 k
      · rw [rowOn k hk hn, ihOff k fun h' => apart k hn h'.2]
      · rw [rowOff k fun h' => hn h'.2, ihOn k hk (((lights k).1 h).resolve_right hn)]
    · rw [rowOff k fun ⟨hk, h'⟩ => h ⟨hk, (lights k).2 (.inr h')⟩, ihOff k fun ⟨hk, h'⟩ => h ⟨hk, (lights k).2 (.inl h')⟩]
    · rw [rowColl, ihColl, or_assoc]
      refine or_congr_right ⟨?_, ?_⟩
      · rintro (⟨k, hk, hl, hc⟩ | ⟨k, hk, hl, hc⟩)
        · exact ⟨k, hk, (lights k).2 (.inl hl), hc⟩
        · exact ⟨k, hk, (lights k).2 (.inr hl), by rwa [ihOff k fun h' => apart k hl h'.2] at hc⟩
      · rintro ⟨k, hk, hl, hc⟩
        rcases (lights k).1 hl with hl | hl
        · exact .inl ⟨k, hk, hl, hc⟩
        · exact .inr ⟨k, hk, hl, by rwa [ihOff k fun h' => apart k hl h'.2]⟩

end Sys2Proof.Machine
end

