-- ==== Sys2Proof/Laws/Encoding.lean ====
section
/-! SUPPORT. The fields of a word built by a format of R73, and the word built from the fields of a word: what decoding
and encoding need of each other. -/

namespace Sys2Proof

/-! ## Fields of a formatted word -/

@[simp] theorem opOf_formatFA (op : Nibble) (a : Addr12) : opOf (formatFA op a) = op := by
  apply BitVec.eq_of_getLsbD_eq
  intro j hj
  simp only [opOf, formatFA, BitVec.getLsbD_extractLsb', BitVec.getLsbD_append]
  simp [hj]

@[simp] theorem nnnOf_formatFA (op : Nibble) (a : Addr12) : nnnOf (formatFA op a) = a := by
  apply BitVec.eq_of_getLsbD_eq
  intro j hj
  simp only [nnnOf, formatFA, BitVec.getLsbD_extractLsb', BitVec.getLsbD_append]
  simp [hj]

@[simp] theorem opOf_formatFXK (op : Nibble) (x : Reg) (k : Byte) : opOf (formatFXK op x k) = op := by
  apply BitVec.eq_of_getLsbD_eq
  intro j hj
  simp only [opOf, formatFXK, BitVec.getLsbD_extractLsb', BitVec.getLsbD_append]
  simp [hj, show ¬ 12 + j < 8 by omega, show ¬ 12 + j - 8 < 4 by omega,
    show 12 + j - 8 - 4 = j by omega]

@[simp] theorem xOf_formatFXK (op : Nibble) (x : Reg) (k : Byte) : xOf (formatFXK op x k) = x := by
  apply BitVec.eq_of_getLsbD_eq
  intro j hj
  simp only [xOf, formatFXK, BitVec.getLsbD_extractLsb', BitVec.getLsbD_append]
  simp [hj]

@[simp] theorem nnOf_formatFXK (op : Nibble) (x : Reg) (k : Byte) : nnOf (formatFXK op x k) = k := by
  apply BitVec.eq_of_getLsbD_eq
  intro j hj
  simp only [nnOf, formatFXK, BitVec.getLsbD_extractLsb', BitVec.getLsbD_append]
  simp [hj]

@[simp] theorem opOf_formatFXYN (op : Nibble) (x y : Reg) (n : Nibble) : opOf (formatFXYN op x y n) = op := by
  apply BitVec.eq_of_getLsbD_eq
  intro j hj
  simp only [opOf, formatFXYN, BitVec.getLsbD_extractLsb', BitVec.getLsbD_append]
  simp [hj, show ¬ 12 + j < 4 by omega, show ¬ 12 + j - 4 < 4 by omega,
    show ¬ 12 + j - 4 - 4 < 4 by omega, show 12 + j - 4 - 4 - 4 = j by omega]

@[simp] theorem xOf_formatFXYN (op : Nibble) (x y : Reg) (n : Nibble) : xOf (formatFXYN op x y n) = x := by
  apply BitVec.eq_of_getLsbD_eq
  intro j hj
  simp only [xOf, formatFXYN, BitVec.getLsbD_extractLsb', BitVec.getLsbD_append]
  simp [hj, show ¬ 8 + j < 4 by omega, show ¬ 8 + j - 4 < 4 by omega,
    show 8 + j - 4 - 4 = j by omega]

@[simp] theorem yOf_formatFXYN (op : Nibble) (x y : Reg) (n : Nibble) : yOf (formatFXYN op x y n) = y := by
  apply BitVec.eq_of_getLsbD_eq
  intro j hj
  simp only [yOf, formatFXYN, BitVec.getLsbD_extractLsb', BitVec.getLsbD_append]
  simp [hj]

@[simp] theorem nOf_formatFXYN (op : Nibble) (x y : Reg) (n : Nibble) : nOf (formatFXYN op x y n) = n := by
  apply BitVec.eq_of_getLsbD_eq
  intro j hj
  simp only [nOf, formatFXYN, BitVec.getLsbD_extractLsb', BitVec.getLsbD_append]
  simp [hj]

/-! ## A word from its fields -/

theorem formatFA_fields (w : Word) : formatFA (opOf w) (nnnOf w) = w := by
  apply BitVec.eq_of_getLsbD_eq
  intro j hj
  simp only [formatFA, opOf, nnnOf, BitVec.getLsbD_append, BitVec.getLsbD_extractLsb']
  by_cases h : j < 12
  · simp [h]
  · simp [h, show j - 12 < 4 by omega, show 12 + (j - 12) = j by omega]

theorem formatFXK_fields (w : Word) : formatFXK (opOf w) (xOf w) (nnOf w) = w := by
  apply BitVec.eq_of_getLsbD_eq
  intro j hj
  simp only [formatFXK, opOf, xOf, nnOf, BitVec.getLsbD_append, BitVec.getLsbD_extractLsb']
  by_cases h : j < 8
  · simp [h]
  · by_cases h' : j < 12
    · simp [h, show j - 8 < 4 by omega, show 8 + (j - 8) = j by omega]
    · simp [h, show ¬ j - 8 < 4 by omega, show j - 8 - 4 < 4 by omega, show 12 + (j - 8 - 4) = j by omega]

theorem formatFXYN_fields (w : Word) : formatFXYN (opOf w) (xOf w) (yOf w) (nOf w) = w := by
  apply BitVec.eq_of_getLsbD_eq
  intro j hj
  simp only [formatFXYN, opOf, xOf, yOf, nOf, BitVec.getLsbD_append, BitVec.getLsbD_extractLsb']
  by_cases h : j < 4
  · simp [h]
  · by_cases h' : j < 8
    · simp [h, show j - 4 < 4 by omega, show 4 + (j - 4) = j by omega]
    · by_cases h'' : j < 12
      · simp [h, show ¬ j - 4 < 4 by omega, show j - 4 - 4 < 4 by omega, show 8 + (j - 4 - 4) = j by omega]
      · simp [h, show ¬ j - 4 < 4 by omega, show ¬ j - 4 - 4 < 4 by omega, show j - 4 - 4 - 4 < 4 by omega,
          show 12 + (j - 4 - 4 - 4) = j by omega]

/-! ## A formatted word under a mask of the opcode table -/

theorem formatFA_and_mask (op : Nibble) (a : Addr12) : formatFA op a &&& 0xF000#16 = formatFA op 0#12 := by
  rw [show (0xF000#16 : Word) = (0xF#4 : Nibble) ++ (0#12 : Addr12) from rfl]
  unfold formatFA
  rw [BitVec.and_append, BitVec.and_zero, show (0xF#4 : Nibble) = BitVec.allOnes 4 from rfl, BitVec.and_allOnes]

theorem formatFXK_and_mask_op (op : Nibble) (x : Reg) (k : Byte) :
    formatFXK op x k &&& 0xF000#16 = formatFXK op 0#4 0#8 := by
  rw [show (0xF000#16 : Word) = (0xF#4 : Nibble) ++ (0#4 : Nibble) ++ (0#8 : Byte) from rfl]
  unfold formatFXK
  rw [BitVec.and_append, BitVec.and_append, BitVec.and_zero, BitVec.and_zero,
    show (0xF#4 : Nibble) = BitVec.allOnes 4 from rfl, BitVec.and_allOnes]

theorem formatFXK_and_mask_sub (op : Nibble) (x : Reg) (k : Byte) :
    formatFXK op x k &&& 0xF0FF#16 = formatFXK op 0#4 k := by
  rw [show (0xF0FF#16 : Word) = (0xF#4 : Nibble) ++ (0#4 : Nibble) ++ (0xFF#8 : Byte) from rfl]
  unfold formatFXK
  rw [BitVec.and_append, BitVec.and_append, BitVec.and_zero, show (0xF#4 : Nibble) = BitVec.allOnes 4 from rfl,
    show (0xFF#8 : Byte) = BitVec.allOnes 8 from rfl, BitVec.and_allOnes, BitVec.and_allOnes]

theorem formatFXYN_and_mask_op (op : Nibble) (x y : Reg) (n : Nibble) :
    formatFXYN op x y n &&& 0xF000#16 = formatFXYN op 0#4 0#4 0#4 := by
  rw [show (0xF000#16 : Word) = (0xF#4 : Nibble) ++ (0#4 : Nibble) ++ (0#4 : Nibble) ++ (0#4 : Nibble) from rfl]
  unfold formatFXYN
  rw [BitVec.and_append, BitVec.and_append, BitVec.and_append, BitVec.and_zero, BitVec.and_zero, BitVec.and_zero,
    show (0xF#4 : Nibble) = BitVec.allOnes 4 from rfl, BitVec.and_allOnes]

theorem formatFXYN_and_mask_low (op : Nibble) (x y : Reg) (n : Nibble) :
    formatFXYN op x y n &&& 0xF00F#16 = formatFXYN op 0#4 0#4 n := by
  rw [show (0xF00F#16 : Word) = (0xF#4 : Nibble) ++ (0#4 : Nibble) ++ (0#4 : Nibble) ++ (0xF#4 : Nibble) from rfl]
  unfold formatFXYN
  rw [BitVec.and_append, BitVec.and_append, BitVec.and_append, BitVec.and_zero, BitVec.and_zero,
    show (0xF#4 : Nibble) = BitVec.allOnes 4 from rfl, BitVec.and_allOnes, BitVec.and_allOnes]

end Sys2Proof
end

