-- ==== Sys2Proof/Laws/PerInstr.lean ====
section
/-! SUPPORT. Statements made per instruction. Family InRow: the word of a well-formed instruction is a word of the row of
the opcode table that has its mnemonic (30_encoding.md R83). -/

namespace Sys2Proof.Laws.InRow

/-- The encoding of `i`, where it has one, lies in its own row. -/
def Statement (i : Instr) : Prop :=
  ∀ strict, i.wellFormed strict = true →
    ∃ row ∈ opcodeTable strict, row.mnemonic = mnemonicOf i ∧ row.covers (encode i) = true

/-- A row of the table that covers the word shows the statement. -/
theorem of_row {i : Instr} (row : OpcodeRow) (hm : row.mnemonic = mnemonicOf i)
    (ht : ∀ strict, row ∈ opcodeTable strict) (hw : encode i &&& row.mask = row.pattern) : Statement i :=
  fun strict _ => ⟨row, ht strict, hm, beq_iff_eq.2 hw⟩

theorem cls : Statement .cls :=
  of_row ⟨"CLS", 0x00E0#16, 0xFFFF#16⟩ rfl (by intro strict; cases strict <;> decide) rfl

theorem ret : Statement .ret :=
  of_row ⟨"RET", 0x00EE#16, 0xFFFF#16⟩ rfl (by intro strict; cases strict <;> decide) rfl

theorem jp (nnn : Addr12) : Statement (.jp nnn) :=
  of_row ⟨"JP", 0x1000#16, 0xF000#16⟩ rfl (by intro strict; cases strict <;> decide) (formatFA_and_mask _ _)

theorem call (nnn : Addr12) : Statement (.call nnn) :=
  of_row ⟨"CALL", 0x2000#16, 0xF000#16⟩ rfl (by intro strict; cases strict <;> decide) (formatFA_and_mask _ _)

theorem seImm (x : Reg) (nn : Byte) : Statement (.seImm x nn) :=
  of_row ⟨"SE_imm", 0x3000#16, 0xF000#16⟩ rfl (by intro strict; cases strict <;> decide) (formatFXK_and_mask_op _ _ _)

theorem sneImm (x : Reg) (nn : Byte) : Statement (.sneImm x nn) :=
  of_row ⟨"SNE_imm", 0x4000#16, 0xF000#16⟩ rfl (by intro strict; cases strict <;> decide) (formatFXK_and_mask_op _ _ _)

theorem seReg (x y : Reg) (n : Nibble) : Statement (.seReg x y n) := by
  intro strict hwf
  refine ⟨⟨"SE_reg", 0x5000#16, regSkipMask strict⟩, by cases strict <;> decide, rfl, beq_iff_eq.2 ?_⟩
  cases strict with
  | false => exact formatFXYN_and_mask_op _ _ _ _
  | true =>
    have hn : n = 0#4 := by simpa [Instr.wellFormed] using hwf
    subst hn
    exact formatFXYN_and_mask_low _ _ _ _

theorem ldImm (x : Reg) (nn : Byte) : Statement (.ldImm x nn) :=
  of_row ⟨"LD_imm", 0x6000#16, 0xF000#16⟩ rfl (by intro strict; cases strict <;> decide) (formatFXK_and_mask_op _ _ _)

theorem addImm (x : Reg) (nn : Byte) : Statement (.addImm x nn) :=
  of_row ⟨"ADD_imm", 0x7000#16, 0xF000#16⟩ rfl (by intro strict; cases strict <;> decide) (formatFXK_and_mask_op _ _ _)

theorem ldReg (x y : Reg) : Statement (.ldReg x y) :=
  of_row ⟨"LD_reg", 0x8000#16, 0xF00F#16⟩ rfl (by intro strict; cases strict <;> decide) (formatFXYN_and_mask_low _ _ _ _)

theorem orReg (x y : Reg) : Statement (.orReg x y) :=
  of_row ⟨"OR", 0x8001#16, 0xF00F#16⟩ rfl (by intro strict; cases strict <;> decide) (formatFXYN_and_mask_low _ _ _ _)

theorem andReg (x y : Reg) : Statement (.andReg x y) :=
  of_row ⟨"AND", 0x8002#16, 0xF00F#16⟩ rfl (by intro strict; cases strict <;> decide) (formatFXYN_and_mask_low _ _ _ _)

theorem xorReg (x y : Reg) : Statement (.xorReg x y) :=
  of_row ⟨"XOR", 0x8003#16, 0xF00F#16⟩ rfl (by intro strict; cases strict <;> decide) (formatFXYN_and_mask_low _ _ _ _)

theorem addReg (x y : Reg) : Statement (.addReg x y) :=
  of_row ⟨"ADD_reg", 0x8004#16, 0xF00F#16⟩ rfl (by intro strict; cases strict <;> decide) (formatFXYN_and_mask_low _ _ _ _)

theorem sub (x y : Reg) : Statement (.sub x y) :=
  of_row ⟨"SUB", 0x8005#16, 0xF00F#16⟩ rfl (by intro strict; cases strict <;> decide) (formatFXYN_and_mask_low _ _ _ _)

theorem shr (x y : Reg) : Statement (.shr x y) :=
  of_row ⟨"SHR", 0x8006#16, 0xF00F#16⟩ rfl (by intro strict; cases strict <;> decide) (formatFXYN_and_mask_low _ _ _ _)

theorem subn (x y : Reg) : Statement (.subn x y) :=
  of_row ⟨"SUBN", 0x8007#16, 0xF00F#16⟩ rfl (by intro strict; cases strict <;> decide) (formatFXYN_and_mask_low _ _ _ _)

theorem shl (x y : Reg) : Statement (.shl x y) :=
  of_row ⟨"SHL", 0x800E#16, 0xF00F#16⟩ rfl (by intro strict; cases strict <;> decide) (formatFXYN_and_mask_low _ _ _ _)

theorem sneReg (x y : Reg) (n : Nibble) : Statement (.sneReg x y n) := by
  intro strict hwf
  refine ⟨⟨"SNE_reg", 0x9000#16, regSkipMask strict⟩, by cases strict <;> decide, rfl, beq_iff_eq.2 ?_⟩
  cases strict with
  | false => exact formatFXYN_and_mask_op _ _ _ _
  | true =>
    have hn : n = 0#4 := by simpa [Instr.wellFormed] using hwf
    subst hn
    exact formatFXYN_and_mask_low _ _ _ _

theorem ldI (nnn : Addr12) : Statement (.ldI nnn) :=
  of_row ⟨"LD_I", 0xA000#16, 0xF000#16⟩ rfl (by intro strict; cases strict <;> decide) (formatFA_and_mask _ _)

theorem jpV0 (nnn : Addr12) : Statement (.jpV0 nnn) :=
  of_row ⟨"JP_V0", 0xB000#16, 0xF000#16⟩ rfl (by intro strict; cases strict <;> decide) (formatFA_and_mask _ _)

theorem rnd (x : Reg) (nn : Byte) : Statement (.rnd x nn) :=
  of_row ⟨"RND", 0xC000#16, 0xF000#16⟩ rfl (by intro strict; cases strict <;> decide) (formatFXK_and_mask_op _ _ _)

theorem drw (x y : Reg) (n : Nibble) : Statement (.drw x y n) :=
  of_row ⟨"DRW", 0xD000#16, 0xF000#16⟩ rfl (by intro strict; cases strict <;> decide) (formatFXYN_and_mask_op _ _ _ _)

theorem skp (x : Reg) : Statement (.skp x) :=
  of_row ⟨"SKP", 0xE09E#16, 0xF0FF#16⟩ rfl (by intro strict; cases strict <;> decide) (formatFXK_and_mask_sub _ _ _)

theorem sknp (x : Reg) : Statement (.sknp x) :=
  of_row ⟨"SKNP", 0xE0A1#16, 0xF0FF#16⟩ rfl (by intro strict; cases strict <;> decide) (formatFXK_and_mask_sub _ _ _)

theorem ldVxDt (x : Reg) : Statement (.ldVxDt x) :=
  of_row ⟨"LD_Vx_DT", 0xF007#16, 0xF0FF#16⟩ rfl (by intro strict; cases strict <;> decide) (formatFXK_and_mask_sub _ _ _)

theorem ldVxK (x : Reg) : Statement (.ldVxK x) :=
  of_row ⟨"LD_Vx_K", 0xF00A#16, 0xF0FF#16⟩ rfl (by intro strict; cases strict <;> decide) (formatFXK_and_mask_sub _ _ _)

theorem ldDtVx (x : Reg) : Statement (.ldDtVx x) :=
  of_row ⟨"LD_DT_Vx", 0xF015#16, 0xF0FF#16⟩ rfl (by intro strict; cases strict <;> decide) (formatFXK_and_mask_sub _ _ _)

theorem ldStVx (x : Reg) : Statement (.ldStVx x) :=
  of_row ⟨"LD_ST_Vx", 0xF018#16, 0xF0FF#16⟩ rfl (by intro strict; cases strict <;> decide) (formatFXK_and_mask_sub _ _ _)

theorem addI (x : Reg) : Statement (.addI x) :=
  of_row ⟨"ADD_I", 0xF01E#16, 0xF0FF#16⟩ rfl (by intro strict; cases strict <;> decide) (formatFXK_and_mask_sub _ _ _)

theorem ldF (x : Reg) : Statement (.ldF x) :=
  of_row ⟨"LD_F", 0xF029#16, 0xF0FF#16⟩ rfl (by intro strict; cases strict <;> decide) (formatFXK_and_mask_sub _ _ _)

theorem ldB (x : Reg) : Statement (.ldB x) :=
  of_row ⟨"LD_B", 0xF033#16, 0xF0FF#16⟩ rfl (by intro strict; cases strict <;> decide) (formatFXK_and_mask_sub _ _ _)

theorem ldMemStore (x : Reg) : Statement (.ldMemStore x) :=
  of_row ⟨"LD_mem_store", 0xF055#16, 0xF0FF#16⟩ rfl (by intro strict; cases strict <;> decide) (formatFXK_and_mask_sub _ _ _)

theorem ldMemLoad (x : Reg) : Statement (.ldMemLoad x) :=
  of_row ⟨"LD_mem_load", 0xF065#16, 0xF0FF#16⟩ rfl (by intro strict; cases strict <;> decide) (formatFXK_and_mask_sub _ _ _)

end Sys2Proof.Laws.InRow
end

