-- ==== Sys2Proof/Laws/Step.lean ====
section
/-! SUPPORT. What a step can do, said once (40_dispatch.md R107): later proofs cite step_cases instead of unfolding
step. -/

namespace Sys2Proof.Machine

/-- Every instruction answers a next state (a fault it raises is one, log 3). -/
theorem exec_next (i : Instr) (s : State) : ∃ t, exec i s = .next t := by
  cases i <;> exact ⟨_, rfl⟩

@[simp] theorem State.commit_of_faulted {s t : State} {f : CoreFault} (h : t.mode = .faulted f) :
    s.commit t = s.takeFault f := by
  unfold State.commit; rw [h]

theorem State.commit_of_notFaulted {s t : State} (h : t.NotFaulted) :
    s.commit t = { t with draws := s.draws + 1 } := by
  unfold State.commit
  split
  · next f hf => exact absurd hf (h f)
  · rfl
  · rfl

theorem step_faulted {s : State} {f : CoreFault} (h : s.mode = .faulted f) : step s = .fault (.stopped f) := by
  simp [step, stepNotRunning, h]

theorem step_awaiting {s : State} (h : s.mode = .awaitingKey) :
    step s = .next (s.takeFault (.precondition .stepWhileAwaiting)) := by
  simp [step, stepNotRunning, h]

theorem step_unsupported {s : State} {w : Word} (h : s.mode = .running) (hd : s.decodeNext = .unsupported w) :
    step s = .next (s.takeFault (.unsupportedOpcode w)) := by
  simp [step, stepRunning, h, hd, State.rejectWord]

theorem step_instr {s t : State} {i : Instr} (h : s.mode = .running) (hd : s.decodeNext = .instr i)
    (he : exec i s.beginStep = .next t) : step s = .next (s.commit t) := by
  simp [step, stepRunning, h, hd, he, commitOutcome]

/-- The decoder hands back the word it was given. -/
theorem decode_unsupported_word {strict : Bool} {w w' : Word} (h : decode strict w = .unsupported w') : w' = w := by
  unfold decode decodeOp0 decodeRegSkip decodeOp8 decodeOpE decodeOpF at h
  split at h <;> (repeat' split at h) <;> simp_all

/-- One step from any state: the four ways a step answers (R100, R101, R106, R107). -/
theorem step_cases (s : State) :
    (∃ f, s.mode = .faulted f ∧ step s = .fault (.stopped f)) ∨
    (s.mode = .awaitingKey ∧ step s = .next (s.takeFault (.precondition .stepWhileAwaiting))) ∨
    (s.mode = .running ∧ s.decodeNext = .unsupported s.fetchWord ∧
      step s = .next (s.takeFault (.unsupportedOpcode s.fetchWord))) ∨
    (∃ i t, s.mode = .running ∧ s.decodeNext = .instr i ∧ exec i s.beginStep = .next t ∧
      step s = .next (s.commit t)) := by
  rcases hm : s.mode with _ | _ | f
  · rcases hd : s.decodeNext with i | w
    · obtain ⟨t, ht⟩ := exec_next i s.beginStep
      exact .inr (.inr (.inr ⟨i, t, rfl, rfl, ht, step_instr hm hd ht⟩))
    · obtain rfl : w = s.fetchWord := decode_unsupported_word hd
      exact .inr (.inr (.inl ⟨rfl, rfl, step_unsupported hm hd⟩))
  · exact .inr (.inl ⟨rfl, step_awaiting hm⟩)
  · exact .inl ⟨f, rfl, step_faulted hm⟩

end Sys2Proof.Machine
end

