-- ==== Sys2Proof/Tests/Slice0.lean ====
section
/-! SUPPORT. The model's own tests: expected values are those of 95_test_vectors.md, of the example line of a rule, or a
word written out from 30_encoding.md R73; and for every obligation with hypotheses, witnesses that meet them. -/

namespace Sys2Proof.Tests

open Sys2Proof.Machine

/-! ## Helpers -/

/-- What a function sees of the next state, if there is one. -/
def after {α : Type} (f : State → α) : Outcome → Option α
  | .next s => some (f s)
  | .fault _ => none
  | .refused _ => none

/-- The reset state with some registers set. -/
def regs (l : List (Reg × Byte)) : State := l.foldl (fun s p => s.writeV p.1 p.2) State.reset

/-- A state with other parameters. -/
def flagLast (s : State) : State := { s with cfg := { s.cfg with vfDestOrder := .flagLast } }

/-- The cells that are on, below an index. -/
def litBelow (n : Nat) (s : State) : List Nat := (List.range n).filter (Display.cell s.disp)

/-- The reset state with a word at PC. -/
def fetching (w : Nat) : State := State.reset.withFetchWord 16 w

/-! ## Well-formedness: each check refuses an ill-formed term -/

theorem test_wf_seReg_refuses_low_nibble : (Instr.seReg 1 2 1).wellFormed true = false := by decide
theorem test_wf_sneReg_refuses_low_nibble : (Instr.sneReg 1 2 15).wellFormed true = false := by decide
theorem test_wf_lax_takes_low_nibble : (Instr.seReg 1 2 1).wellFormed false = true := by decide
theorem test_wf_program_too_large : programFits (List.replicate 3585 0#8) = false := by
  rw [programFits, List.length_replicate]; decide
theorem test_wf_program_largest : programFits (List.replicate 3584 0#8) = true := by
  rw [programFits, List.length_replicate]; decide

/-! ## Decoding: one word for every constructor, written bit by bit from R73 (x = 0xA, y = 0x5 unless the format says
otherwise) -/

theorem test_decode_cls : decode true 0b0000000011100000#16 = .instr .cls := by decide
theorem test_decode_ret : decode true 0b0000000011101110#16 = .instr .ret := by decide
theorem test_decode_jp : decode true 0b0001101010111100#16 = .instr (.jp 0xABC) := by decide
theorem test_decode_call : decode true 0b0010001100000001#16 = .instr (.call 0x301) := by decide
theorem test_decode_seImm : decode true 0b0011101001000010#16 = .instr (.seImm 0xA 0x42) := by decide
theorem test_decode_sneImm : decode true 0b0100101001000010#16 = .instr (.sneImm 0xA 0x42) := by decide
theorem test_decode_seReg : decode true 0b0101101001010000#16 = .instr (.seReg 0xA 5 0) := by decide
theorem test_decode_ldImm : decode true 0b0110101010000001#16 = .instr (.ldImm 0xA 0x81) := by decide
theorem test_decode_addImm : decode true 0b0111101010000001#16 = .instr (.addImm 0xA 0x81) := by decide
theorem test_decode_ldReg : decode true 0b1000101001010000#16 = .instr (.ldReg 0xA 5) := by decide
theorem test_decode_orReg : decode true 0b1000101001010001#16 = .instr (.orReg 0xA 5) := by decide
theorem test_decode_andReg : decode true 0b1000101001010010#16 = .instr (.andReg 0xA 5) := by decide
theorem test_decode_xorReg : decode true 0b1000101001010011#16 = .instr (.xorReg 0xA 5) := by decide
theorem test_decode_addReg : decode true 0b1000101001010100#16 = .instr (.addReg 0xA 5) := by decide
theorem test_decode_sub : decode true 0b1000101001010101#16 = .instr (.sub 0xA 5) := by decide
theorem test_decode_shr : decode true 0b1000101001010110#16 = .instr (.shr 0xA 5) := by decide
theorem test_decode_subn : decode true 0b1000101001010111#16 = .instr (.subn 0xA 5) := by decide
theorem test_decode_shl : decode true 0b1000101001011110#16 = .instr (.shl 0xA 5) := by decide
theorem test_decode_sneReg : decode true 0b1001101001010000#16 = .instr (.sneReg 0xA 5 0) := by decide
theorem test_decode_ldI : decode true 0b1010001011110000#16 = .instr (.ldI 0x2F0) := by decide
theorem test_decode_jpV0 : decode true 0b1011001100000000#16 = .instr (.jpV0 0x300) := by decide
theorem test_decode_rnd : decode true 0b1100101000001111#16 = .instr (.rnd 0xA 0x0F) := by decide
theorem test_decode_drw : decode true 0b1101101001010110#16 = .instr (.drw 0xA 5 6) := by decide
theorem test_decode_skp : decode true 0b1110101010011110#16 = .instr (.skp 0xA) := by decide
theorem test_decode_sknp : decode true 0b1110101010100001#16 = .instr (.sknp 0xA) := by decide
theorem test_decode_ldVxDt : decode true 0b1111101000000111#16 = .instr (.ldVxDt 0xA) := by decide
theorem test_decode_ldVxK : decode true 0b1111101000001010#16 = .instr (.ldVxK 0xA) := by decide
theorem test_decode_ldDtVx : decode true 0b1111101000010101#16 = .instr (.ldDtVx 0xA) := by decide
theorem test_decode_ldStVx : decode true 0b1111101000011000#16 = .instr (.ldStVx 0xA) := by decide
theorem test_decode_addI : decode true 0b1111101000011110#16 = .instr (.addI 0xA) := by decide
theorem test_decode_ldF : decode true 0b1111101000101001#16 = .instr (.ldF 0xA) := by decide
theorem test_decode_ldB : decode true 0b1111101000110011#16 = .instr (.ldB 0xA) := by decide
theorem test_decode_ldMemStore : decode true 0b1111101001010101#16 = .instr (.ldMemStore 0xA) := by decide
theorem test_decode_ldMemLoad : decode true 0b1111101001100101#16 = .instr (.ldMemLoad 0xA) := by decide

/-- Section 2.1: the unsupported words of the table. -/
theorem test_decode_unsupported :
    [0x0000#16, 0x00E1#16, 0x0FFF#16, 0x5121#16, 0x8008#16, 0x800F#16, 0x9AB1#16, 0xE09F#16, 0xF000#16, 0xF166#16,
      0xFFFF#16].all (fun w => decode true w == .unsupported w) = true := by decide

theorem test_decodeTableWord_reads_big_endian : decodeTableWord 16 0x8124 = some (.addReg 1 2) := by decide
theorem test_decodeTableWord_refuses : decodeTableWord 16 0x8128 = none := by decide

/-! ## Control transfer (section 2.2) -/

theorem test_jp : after (·.pc) (exec (.jp 0xABC) State.reset) = some 0x0ABC := by decide
theorem test_call : after (fun t => (t.stack, t.pc)) (exec (.call 0x300) { State.reset with pc := 0x204 }) =
    some ([0x204], 0x300) := by decide
theorem test_call_overflow : after (·.mode) (exec (.call 0x400)
    { State.reset with cfg := { Config.default with stackDepth := some 2 }, stack := [0x206, 0x204] }) =
    some (.faulted .stackOverflow) := by decide
theorem test_ret : after (fun t => (t.stack, t.pc)) (exec .ret { State.reset with stack := [0x204] }) =
    some ([], 0x204) := by decide
theorem test_ret_underflow : after (fun t => (t.mode, t.pc)) (step ({ State.reset with pc := 0x300 }.withFetchWord 16 0x00EE)) =
    some (.faulted (.precondition .stackUnderflow), 0x300) := by decide
theorem test_seImm_skips : after (·.pc) (step ((regs [(3, 5)]).withFetchWord 16 0x3305)) = some 0x204 := by decide
theorem test_seImm_wraps : after (·.pc) (step ({ State.reset with pc := 0xFFFC }.withFetchWord 16 0x3000)) =
    some 0x0000 := by decide
theorem test_sneImm_stays : after (·.pc) (step ((regs [(3, 5)]).withFetchWord 16 0x4305)) = some 0x202 := by decide
theorem test_sneImm_skips : after (·.pc) (step ((regs [(3, 5)]).withFetchWord 16 0x4306)) = some 0x204 := by decide
theorem test_seReg_same_register_skips : after (·.pc) (step ((regs [(1, 9)]).withFetchWord 16 0x5110)) =
    some 0x204 := by decide
theorem test_sneReg_stays : after (·.pc) (step ((regs [(1, 9), (2, 9)]).withFetchWord 16 0x9120)) =
    some 0x202 := by decide
theorem test_sneReg_skips : after (·.pc) (step ((regs [(1, 7), (2, 8)]).withFetchWord 16 0x9120)) =
    some 0x204 := by decide
theorem test_jpV0_past_12_bits : after (·.pc) (exec (.jpV0 0xFFF) (regs [(0, 0xFF)])) = some 0x10FE := by decide
theorem test_jpV0_reads_V0 : after (·.pc) (exec (.jpV0 0x300) (regs [(0, 0x10), (3, 0x20)])) = some 0x310 := by decide

/-! ## Loads and the ALU (section 2.3) -/

theorem test_ldImm_vf : after (·.readV 15) (exec (.ldImm 15 0xAB) State.reset) = some 0xAB := by decide
theorem test_addImm_no_flag : after (fun t => (t.readV 0, t.readV 15)) (exec (.addImm 0 1) (regs [(0, 0xFF), (15, 7)])) =
    some (0, 7) := by decide
theorem test_ldReg : after (fun t => (t.readV 1, t.readV 2, t.readV 15)) (exec (.ldReg 1 2) (regs [(1, 0x12), (2, 0x34), (15, 0x55)])) =
    some (0x34, 0x34, 0x55) := by decide
theorem test_orReg : after (fun t => (t.readV 1, t.readV 2)) (exec (.orReg 1 2) (regs [(1, 0xF0), (2, 0x0F)])) =
    some (0xFF, 0x0F) := by decide
theorem test_andReg : after (·.readV 1) (exec (.andReg 1 2) (regs [(1, 0xF3), (2, 0x3F)])) = some 0x33 := by decide
theorem test_xorReg : after (·.readV 1) (exec (.xorReg 1 2) (regs [(1, 0xFF), (2, 0x0F)])) = some 0xF0 := by decide
theorem test_addReg_vf_operand : after (fun t => (t.readV 1, t.readV 15)) (exec (.addReg 1 15) (regs [(1, 0x10), (15, 0xF0)])) =
    some (0, 1) := by decide
theorem test_addReg_vf_dest : (after (·.readV 15) (exec (.addReg 15 1) (regs [(15, 0xFF), (1, 1)])),
    after (·.readV 15) (exec (.addReg 15 1) (flagLast (regs [(15, 0xFF), (1, 1)])))) = (some 0, some 1) := by decide
theorem test_sub_borrow : after (fun t => (t.readV 0, t.readV 15)) (exec (.sub 0 1) (regs [(0, 3), (1, 7)])) =
    some (252, 0) := by decide
theorem test_sub_vf_dest : (after (·.readV 15) (exec (.sub 15 1) (regs [(15, 5), (1, 3)])),
    after (·.readV 15) (exec (.sub 15 1) (flagLast (regs [(15, 5), (1, 3)])))) = (some 2, some 1) := by decide
theorem test_shr_ignores_y : after (fun t => (t.readV 1, t.readV 15)) (exec (.shr 1 2) (regs [(1, 5), (2, 0xFE)])) =
    some (2, 1) := by decide
theorem test_shr_vf_dest : (after (·.readV 15) (exec (.shr 15 0) (regs [(15, 2)])),
    after (·.readV 15) (exec (.shr 15 0) (flagLast (regs [(15, 2)])))) = (some 1, some 0) := by decide
theorem test_subn_borrow : after (fun t => (t.readV 1, t.readV 15)) (exec (.subn 1 2) (regs [(1, 5), (2, 3)])) =
    some (0xFE, 0) := by decide
theorem test_subn_equal : after (fun t => (t.readV 1, t.readV 15)) (exec (.subn 1 2) (regs [(1, 4), (2, 4)])) =
    some (0, 1) := by decide
theorem test_shl : after (fun t => (t.readV 2, t.readV 15)) (exec (.shl 2 0) (regs [(2, 0x81)])) = some (2, 1) := by decide
theorem test_shl_no_carry : after (fun t => (t.readV 1, t.readV 15)) (exec (.shl 1 0) (regs [(1, 0x40)])) =
    some (0x80, 0) := by decide
theorem test_random_masks : (State.reset.random 0xA7 1 0x0F).readV 1 = 0x07 := by decide
theorem test_rnd_zero_mask : after (·.readV 1) (exec (.rnd 1 0) State.reset) = some 0 := by
  simp [after, exec, execRnd, State.random]

/-! ## Display (section 2.4) -/

theorem test_cls : after (litBelow 100) (exec .cls { State.reset with disp := Display.toggle Display.blank 65 }) =
    some [] := by decide
theorem test_drw_spills_to_next_row : after (fun t => (litBelow 130 t, t.readV 15))
    (exec (.drw 0 1 1) ({ regs [(0, 62)] with i := 0x300 }.writeByte 0x300 0xFF)) =
    some ([62, 63, 64, 65, 66, 67, 68, 69], 0) := by decide
theorem test_drw_drops_past_buffer : after (fun t => (Display.cell t.disp 2047, Display.cell t.disp 2043, t.readV 15))
    (exec (.drw 0 1 1) ({ regs [(0, 60), (1, 31)] with i := 0x300 }.writeByte 0x300 0xFF)) =
    some (true, false, 0) := by decide

/-! ## Keys and timers (section 2.5) -/

theorem test_skp_key15 : after (·.pc) (step ({ regs [(1, 15)] with kbd := 0x8001 }.withFetchWord 16 0xE19E)) =
    some 0x204 := by decide
theorem test_skp_not_held : after (·.pc) (step ({ regs [(1, 1)] with kbd := 0x8001 }.withFetchWord 16 0xE19E)) =
    some 0x202 := by decide
theorem test_sknp_not_held : after (·.pc) (step ({ regs [(1, 1)] with kbd := 0x8001 }.withFetchWord 16 0xE1A1)) =
    some 0x204 := by decide
theorem test_keyHeld_out_of_range : (keyHeld 0xFFFF false 16, keyHeld 0 true 16) = (false, true) := by decide
theorem test_ldVxDt : after (·.readV 1) (exec (.ldVxDt 1) { State.reset with dt := 5 }) = some 5 := by decide
theorem test_tick : (({ State.reset with dt := 5, st := 5 }.applyTick true).dt,
    ({ State.reset with dt := 5, st := 5 }.applyTick true).st, (State.reset.applyTick true).dt) = (4, 4, 0) := by decide
theorem test_tick_external : ({ State.reset with cfg := { Config.default with soundTickMode := .external }, st := 5 }.applyTick true).st = 5 := by
  decide
theorem test_ldVxK : after (fun t => (t.mode, t.waitDst, t.pc)) (step ({ State.reset with pc := 0x210 }.withFetchWord 16 0xF30A)) =
    some (.awaitingKey, 3, 0x210) := by decide
theorem test_ldVxK_wraps : after (·.pc) (step ({ State.reset with pc := 0xFFFE }.withFetchWord 16 0xF30A)) =
    some 0xFFFE := by decide
theorem test_ldDtVx : after (·.dt) (exec (.ldDtVx 0) (regs [(0, 8)])) = some 8 := by decide
theorem test_ldStVx : after (fun t => (t.st, t.soundOn)) (exec (.ldStVx 2) { State.reset with st := 3 }) =
    some (0, false) := by decide
theorem test_deliverKey : after (fun t => (t.readV 3, t.pc, t.mode))
    (deliverKey 7 { State.reset with mode := .awaitingKey, waitDst := 3, pc := 0x210 }) = some (7, 0x212, .running) := by
  decide
theorem test_deliverKey_out_of_range : after (·.mode) (deliverKey 16 { State.reset with mode := .awaitingKey }) =
    some (.faulted (.precondition (.keyOutOfRange 16))) := by decide
theorem test_deliverKey_running : after (·.mode) (deliverKey 3 State.reset) =
    some (.faulted (.precondition (.deliverWhileRunning 3))) := by decide

/-! ## Index register and memory (section 2.6) -/

theorem test_ldI : after (·.i) (exec (.ldI 0xFFF) State.reset) = some 0x0FFF := by decide
theorem test_addI_wraps : after (fun t => (t.i, t.readV 15)) (exec (.addI 1) { regs [(1, 2)] with i := 0xFFFF }) =
    some (1, 0) := by decide
theorem test_addI_past_12_bits : after (·.i) (exec (.addI 1) { regs [(1, 1)] with i := 0xFFF }) = some 0x1000 := by decide
theorem test_ldF : after (·.i) (exec (.ldF 1) (regs [(1, 0xFF)])) = some 1275 := by decide
theorem test_ldB_wraps : after (fun t => (t.readByte 0xFFF, t.readByte 0, t.readByte 1, t.i))
    (exec (.ldB 1) { regs [(1, 255)] with i := 0xFFF }) = some (2, 5, 5, 0xFFF) := by decide
theorem test_ldB_digits : after (fun t => (t.readByte 0x300, t.readByte 0x301, t.readByte 0x302))
    (exec (.ldB 1) { regs [(1, 0x9C)] with i := 0x300 }) = some (1, 5, 6) := by decide
theorem test_ldMemStore_wraps : after (fun t => (t.readByte 0xFFF, t.readByte 0, t.readByte 2, t.i))
    (exec (.ldMemStore 1) { regs [(0, 7), (1, 8), (2, 9)] with i := 0xFFF }) = some (7, 8, 0x90, 0xFFF) := by decide
theorem test_ldMemLoad_x_only : after (fun t => (t.readV 0, t.readV 1))
    (exec (.ldMemLoad 0) ({ regs [(1, 0x11)] with i := 0x1400 }.writeByte 0x400 0xAA)) = some (0xAA, 0x11) := by decide

/-! ## Fetch, faults, operations (sections 2.2, 2.7) -/

theorem test_fetch_wraps : after (fun t => (t.readV 0, t.pc))
    (step (({ State.reset with pc := 0xFFF }.writeByte 0xFFF 0x60).writeByte 0 0x12)) = some (0x12, 0x1001) := by decide
theorem test_unsupported : after (fun t => (t.mode, t.pc, t.faultOutput)) (step (fetching 0x0123)) =
    some (.faulted (.unsupportedOpcode 0x0123), 0x200, some (1, some 0x0123)) := by decide
theorem test_step_while_awaiting : after (fun t => (t.mode, t.dt)) (step { State.reset with mode := .awaitingKey, dt := 5 }) =
    some (.faulted (.precondition .stepWhileAwaiting), 5) := by decide
theorem test_step_while_faulted : step { State.reset with mode := .faulted .stackOverflow } = .fault (.stopped .stackOverflow) :=
  rfl
theorem test_load : after (fun t => (t.mode, t.pc, t.readByte 513, t.readByte 514, t.readByte 75))
    (load [0x12, 0x34] { regs [(1, 1)] with mode := .faulted .stackOverflow }) = some (.running, 512, 0x34, 0, 0xF0) := by
  decide
theorem test_load_empty_is_reset : State.loaded Config.default 0 [] = State.reset := by decide
theorem test_before_first_load : HostOp.step.applyUnloaded Config.default = .refused .beforeFirstLoad := rfl

/-! ## Witnesses: states and operands that meet the hypotheses of each obligation, clause by clause -/

theorem witness_ret_nonempty : { State.reset with stack := [0x204] }.stack = 0x204#16 :: [] := rfl
theorem witness_ret_empty_step : (fetching 0x00EE).mode = .running ∧ (fetching 0x00EE).decodeNext = .instr .ret ∧
    (fetching 0x00EE).stack = [] := by decide

/-- A machine with a stack of two entries, full, at a call. -/
def fullStack : State := { fetching 0x2400 with cfg := { Config.default with stackDepth := some 2 }, stack := [0x206, 0x204] }

theorem witness_call_not_full : State.reset.cfg.stackDepth ≠ some State.reset.stack.length ∧
    ({ fullStack with stack := [0x204] } : State).cfg.stackDepth ≠ some ({ fullStack with stack := [0x204] } : State).stack.length := by
  decide
theorem witness_call_full : fullStack.mode = .running ∧ fullStack.decodeNext = .instr (.call 0x400) ∧
    fullStack.cfg.stackDepth = some fullStack.stack.length := by decide
theorem witness_skip_imm : (regs [(3, 5)]).readV 3 = 5 ∧ (regs [(3, 5)]).readV 3 ≠ 6 := by decide
theorem witness_skip_reg : (regs [(1, 7), (2, 7)]).readV 1 = (regs [(1, 7), (2, 7)]).readV 2 ∧
    (regs [(1, 7), (2, 8)]).readV 1 ≠ (regs [(1, 7), (2, 8)]).readV 2 := by decide
theorem witness_alu_dest : (0#4 : Reg) ≠ vf ∧ (15#4 : Reg) = vf ∧ State.reset.cfg.vfDestOrder = .resultLast ∧
    (flagLast State.reset).cfg.vfDestOrder = .flagLast := by decide
theorem witness_add_carry : (regs [(0, 255), (1, 1)]).readV 0 = 255#8 ∧ (255#8).toNat + (1#8).toNat > 255 ∧
    ¬ (255#8).toNat + (0#8).toNat > 255 := by decide
theorem witness_sub_borrow : (7#8).toNat ≥ (7#8).toNat ∧ ¬ (6#8).toNat ≥ (7#8).toNat := by decide
theorem witness_shift_out : (0x81#8).toNat % 2 = 1 ∧ ¬ (0x80#8).toNat % 2 = 1 ∧ (0x80#8).toNat ≥ 128 ∧
    ¬ (0x7F#8).toNat ≥ 128 := by decide

/-- A state whose sprite is the glyph 0 of the default font, at the last corner of the screen that shows a cell. -/
def lastCell : State := regs [(0, 63), (1, 31)]

theorem witness_drw_lights : SpriteLights lastCell 0 1 5 2047 := ⟨0, 0, by decide⟩
theorem witness_drw_not_lights : ¬ SpriteLights lastCell 0 1 0 2047 := by
  rintro ⟨r, c, hr, -⟩; exact absurd hr (by simp)
theorem witness_drw_collides : ∃ t, exec (.drw 0 1 5) { lastCell with disp := Display.toggle Display.blank 2047 } = .next t ∧
    ∃ k, k < 2048 ∧ Display.cell (Display.toggle Display.blank 2047) k = true ∧ Display.cell t.disp k = false :=
  ⟨_, rfl, 2047, by decide⟩
theorem witness_drw_no_collision : ¬ ∃ k, k < 2048 ∧ Display.cell lastCell.disp k = true ∧ Display.cell lastCell.disp k = false := by
  rintro ⟨k, -, h1, h2⟩; rw [h1] at h2; cases h2
theorem witness_drw_twice : ∃ t u, exec (.drw 0 1 5) lastCell = .next t ∧ t.readV 0 = lastCell.readV 0 ∧
    t.readV 1 = lastCell.readV 1 ∧ exec (.drw 0 1 5) t = .next u := ⟨_, _, rfl, rfl, rfl, rfl⟩
theorem witness_key_index : (regs [(1, 15)]).readV 1 = 15#8 ∧ (15#8).toNat ≤ 15 ∧ (regs [(1, 16)]).readV 1 = 16#8 ∧
    15 < (16#8).toNat := by decide
theorem witness_key_held : (0x8001#16).getLsbD 15 = true ∧ (0x8001#16).getLsbD 14 = false := by decide
theorem witness_read_delay_step : (fetching 0xF307).mode = .running ∧ (fetching 0xF307).decodeNext = .instr (.ldVxDt 3) := by
  decide
theorem witness_wait_key_step : (fetching 0xF30A).mode = .running ∧ (fetching 0xF30A).decodeNext = .instr (.ldVxK 3) := by
  decide
theorem witness_timer_write_steps : (fetching 0xF315).decodeNext = .instr (.ldDtVx 3) ∧
    (fetching 0xF318).decodeNext = .instr (.ldStVx 3) ∧ (fetching 0xF315).mode = .running ∧
    (fetching 0xF318).mode = .running := by decide
theorem witness_reg_range : (15#4 : Reg).toNat ≤ (15#4 : Reg).toNat ∧ (0#4 : Reg).toNat ≤ (0#4 : Reg).toNat ∧
    ¬ (1#4 : Reg).toNat ≤ (0#4 : Reg).toNat := by decide
theorem witness_step_runs : (fetching 0x6005).mode = .running ∧ decodeBytes (fetching 0x6005).cfg.strictLowNibble
    ((fetching 0x6005).readByte (fetching 0x6005).pc.toNat) ((fetching 0x6005).readByte ((fetching 0x6005).pc.toNat + 1)) =
    .instr (.ldImm 0 5) := by decide
theorem witness_step_notFaulted : ∃ t, exec (.ldImm 0 5) (fetching 0x6005).beginStep = .next t ∧ t.NotFaulted :=
  ⟨_, rfl, fun f h => by cases h⟩
theorem witness_step_faulted : ∃ t f, exec .ret (fetching 0x00EE).beginStep = .next t ∧ t.mode = .faulted f :=
  ⟨_, _, rfl, rfl⟩
theorem witness_step_unsupported : decodeBytes (fetching 0x8008).cfg.strictLowNibble
    ((fetching 0x8008).readByte (fetching 0x8008).pc.toNat) ((fetching 0x8008).readByte ((fetching 0x8008).pc.toNat + 1)) =
    .unsupported 0x8008 := by decide

/-- The machine under `SOUND_TICK_MODE = external`. -/
def externalSound : State := { State.reset with cfg := { Config.default with soundTickMode := .external } }

theorem witness_sound_modes : State.reset.cfg.soundTickMode = .core ∧ externalSound.cfg.soundTickMode = .external := by decide
theorem witness_unsupported : (fetching 0xFFFF).mode = .running ∧ (fetching 0xFFFF).decodeNext = .unsupported 0xFFFF := by decide
theorem witness_outside_running : { State.reset with mode := .awaitingKey }.mode = .awaitingKey ∧
    { State.reset with mode := .faulted .stackOverflow }.mode = .faulted .stackOverflow := ⟨rfl, rfl⟩
theorem witness_skip_steps : (fetching 0x3342).decodeNext = .instr (.seImm 3 0x42) ∧
    (fetching 0x4342).decodeNext = .instr (.sneImm 3 0x42) ∧ (fetching 0x5120).decodeNext = .instr (.seReg 1 2 0) ∧
    (fetching 0x9120).decodeNext = .instr (.sneReg 1 2 0) ∧ (fetching 0xE19E).decodeNext = .instr (.skp 1) ∧
    (fetching 0xE1A1).decodeNext = .instr (.sknp 1) ∧ (fetching 0x3342).mode = .running := by decide

/-- A call of the return that stands at 0x300. -/
def atCall : State := (fetching 0x2300).writeBytes 0x300 [0x00, 0xEE]

theorem witness_call_then_return : atCall.mode = .running ∧ atCall.decodeNext = .instr (.call 0x300) ∧
    atCall.cfg.stackDepth ≠ some atCall.stack.length ∧
    after (fun t => (t.decodeNext, after (·.pc) (step t))) (step atCall) = some (.instr .ret, some 0x202) := by decide
theorem witness_deliver : ({ State.reset with mode := .awaitingKey } : State).mode = .awaitingKey ∧ 15 ≤ 15 ∧ 15 < 16 ∧
    State.reset.mode = .running := ⟨rfl, Nat.le_refl _, by decide, rfl⟩
theorem witness_load_sizes : (List.replicate 3584 0#8).length ≤ 3584 ∧ 3584 < (List.replicate 3585 0#8).length := by
  rw [List.length_replicate, List.length_replicate]; decide
theorem witness_load_ranges : 79 < 80 ∧ 80 ≤ 80 ∧ 511 < 512 ∧ 0 < [0x12#8].length ∧ 512 + [0x12#8].length ≤ 513 ∧ 4095 < 4096 := by
  decide
theorem witness_faulting_step : ∃ t, HostOp.step.apply (fetching 0xFFFF) = .next t ∧ t.mode = .faulted (.unsupportedOpcode 0xFFFF) :=
  ⟨_, rfl, rfl⟩
theorem witness_faulting_deliverKey : ∃ t, (HostOp.deliverKey 3).apply State.reset = .next t ∧
    t.mode = .faulted (.precondition (.deliverWhileRunning 3)) := ⟨_, rfl, rfl⟩
theorem witness_faulting_load : ∃ t, (HostOp.load (List.replicate 3585 0#8)).apply State.reset = .next t ∧
    t.mode = .faulted (.loadTooLarge 3585) := by
  refine ⟨State.reset.takeFault (.loadTooLarge 3585), ?_, rfl⟩
  rw [HostOp.apply, load, test_wf_program_too_large, List.length_replicate]; rfl
theorem witness_leaving_faulted : ∃ t, { State.reset with mode := .faulted .stackOverflow }.mode = .faulted .stackOverflow ∧
    (HostOp.setKbd 1).apply { State.reset with mode := .faulted .stackOverflow } = .next t := ⟨_, rfl, rfl⟩
theorem witness_mode_change : ∃ t, HostOp.step.apply (fetching 0xF30A) = .next t := ⟨_, rfl⟩
theorem witness_exec_next : ∃ t, exec (.ldMemLoad 3) State.reset = .next t := ⟨_, rfl⟩
theorem witness_not_key_test : (∀ x, Instr.cls ≠ .skp x) ∧ ∀ x, Instr.cls ≠ .sknp x :=
  ⟨fun _ h => (by cases h), fun _ h => (by cases h)⟩
theorem witness_same_parts : State.reset.MemWf ∧ (regs [(1, 1)]).MemWf ∧ OnlyChanges (fun _ => False) State.reset State.reset :=
  ⟨rfl, rfl, fun p _ => by cases p <;> rfl⟩
theorem witness_wellFormed : (Instr.seReg 15 0 0).wellFormed true = true ∧ (Instr.seReg 15 0 15).wellFormed false = true := by decide
theorem witness_decoded : decode true 0xD125 = .instr (.drw 1 2 5) := by decide
theorem witness_row_covers : (⟨"JP", 0x1000#16, 0xF000#16⟩ : OpcodeRow) ∈ opcodeTable true ∧
    OpcodeRow.covers ⟨"JP", 0x1000#16, 0xF000#16⟩ 0x1FFF = true := by decide
theorem witness_invariant_step : State.reset.Inv ∧ ∃ t, step State.reset = .next t :=
  ⟨⟨rfl, fun d h => (by cases h), trivial⟩, _, rfl⟩
theorem witness_invariant_op : ∃ t, (HostOp.deliverKey 3).apply State.reset = .next t := ⟨_, rfl⟩
theorem witness_run : ∃ s t, HostOp.applyUnloaded (.load [0x60, 0x05]) Config.default = .next s ∧
    runOps [.step, .setKbd 1] s = .next t := ⟨_, _, rfl, rfl⟩
theorem witness_run_fault : ∃ s r, HostOp.applyUnloaded (.load []) Config.default = .next s ∧
    runOps [.step, .step] s = .fault r := ⟨_, _, rfl, rfl⟩
theorem witness_run_refused : ∃ s r, HostOp.applyUnloaded (.load []) Config.default = .next s ∧
    runOps [.soundTick] s = .refused r := ⟨_, _, rfl, rfl⟩

end Sys2Proof.Tests
end

section
/-! PROOFS. Control transfer (41_control_flow.md): the immediate jumps and the immediate skips. Each settling theorem is
assembled from three rules: the word decodes as the instruction, the instruction's arm of `exec`, and what a write of PC
leaves unchanged. -/

namespace Sys2Proof.Machine

/-! ## Words of the control-transfer instructions (R73, R83) -/

theorem decodesAs_jp (nnn : Addr12) : DecodesAs (formatFA 0x1#4 nnn) (.jp nnn) := by
  intro strict; simp [decode]

theorem decodesAs_jpV0 (nnn : Addr12) : DecodesAs (formatFA 0xB#4 nnn) (.jpV0 nnn) := by
  intro strict; simp [decode]

theorem decodesAs_seImm (x : Reg) (nn : Byte) : DecodesAs (formatFXK 0x3#4 x nn) (.seImm x nn) := by
  intro strict; simp [decode]

theorem decodesAs_sneImm (x : Reg) (nn : Byte) : DecodesAs (formatFXK 0x4#4 x nn) (.sneImm x nn) := by
  intro strict; simp [decode]

/-! ## What the instructions answer -/

theorem exec_jp (nnn : Addr12) (s : State) : exec (.jp nnn) s = .next (s.jumpTo (zext16OfAddr nnn)) := rfl

theorem exec_jpV0 (nnn : Addr12) (s : State) : exec (.jpV0 nnn) s = .next (s.jumpTo (offsetTarget s nnn)) := rfl

theorem exec_seImm (x : Reg) (nn : Byte) (s : State) :
    exec (.seImm x nn) s = .next (s.skipIf (s.readV x == nn)) := rfl

theorem exec_sneImm (x : Reg) (nn : Byte) (s : State) :
    exec (.sneImm x nn) s = .next (s.skipIf (s.readV x != nn)) := rfl

/-! ## The frame of a write of PC -/

theorem State.jumpTo_onlyChanges_pc (s : State) (target : Word) : OnlyChanges (fun p => p = .pc) s (s.jumpTo target) := by
  intro p hp
  cases p with
  | pc => exact absurd rfl hp
  | v | i | dt | st | stack | byte | cell | kbd | mode | waitDst | cfg | draws => rfl

theorem State.skipIf_onlyChanges_pc (s : State) (c : Bool) : OnlyChanges (fun p => p = .pc) s (s.skipIf c) := by
  rw [State.skipIf_eq]
  exact s.jumpTo_onlyChanges_pc _

/-! ## Jump targets as numbers -/

@[simp] theorem toNat_zext16OfAddr (nnn : Addr12) : (zext16OfAddr nnn).toNat = nnn.toNat :=
  BitVec.toNat_setWidth_of_le (by decide)

@[simp] theorem toNat_zext16OfByte (b : Byte) : (zext16OfByte b).toNat = b.toNat :=
  BitVec.toNat_setWidth_of_le (by decide)

/-- The sum of R127 is exact: it is at most 4095 + 255, so keeping 16 bits loses nothing. -/
theorem toNat_offsetTarget (s : State) (nnn : Addr12) :
    (offsetTarget s nnn).toNat = nnn.toNat + (s.readV 0#4).toNat := by
  have hfits : (zext16OfAddr nnn).toNat + (zext16OfByte (s.readV 0#4)).toNat < 2 ^ 16 := by
    rw [toNat_zext16OfAddr, toNat_zext16OfByte]
    have hAddr := nnn.isLt
    have hByte := (s.readV 0#4).isLt
    omega
  rw [offsetTarget, BitVec.toNat_add_of_lt hfits, toNat_zext16OfAddr, toNat_zext16OfByte]

/-! ## The obligations -/

/-- Settles O2: the jump of R121 writes the zero-extended address to PC and nothing else. -/
theorem jumpSetsPcToAddress : Obligations.JumpSetsPcToAddress := by
  intro nnn
  refine ⟨decodesAs_jp nnn, fun s => ⟨_, exec_jp nnn s, ?_, s.jumpTo_onlyChanges_pc _⟩⟩
  rw [State.jumpTo_pc, toNat_zext16OfAddr]

/-- Settles O4: the skip conditions of R123 and R124 are negations of each other, and a skip writes PC alone. -/
theorem immediateSkipsCompareRegister : Obligations.ImmediateSkipsCompareRegister := by
  intro x nn
  refine ⟨decodesAs_seImm x nn, decodesAs_sneImm x nn, fun s =>
    ⟨_, _, exec_seImm x nn s, exec_sneImm x nn s, ?equal, ?differ, s.skipIf_onlyChanges_pc _, s.skipIf_onlyChanges_pc _⟩⟩
  case equal => intro h; simp [h]
  case differ => intro h; simp [h]

/-- Settles O6: PC takes the exact sum of R127, and nothing else changes. -/
theorem jumpOffsetAddsV0 : Obligations.JumpOffsetAddsV0 := by
  intro nnn
  refine ⟨decodesAs_jpV0 nnn, fun s => ⟨_, exec_jpV0 nnn s, ?_, s.jumpTo_onlyChanges_pc _⟩⟩
  rw [State.jumpTo_pc, toNat_offsetTarget]

end Sys2Proof.Machine
end

section
/-! PROOFS. Loads and the ALU (42_alu.md): the immediate load and sum, add-with-carry and sub-with-borrow. The rules:
the word decodes as the instruction, the instruction's arm of `exec`, what a write of a register or of flag and result
leaves unchanged, and the byte operations as numbers. -/

namespace Sys2Proof.Machine

/-! ## Words of the load and ALU instructions (R73, R83) -/

theorem decodesAs_ldImm (x : Reg) (nn : Byte) : DecodesAs (formatFXK 0x6#4 x nn) (.ldImm x nn) := by
  intro strict; simp [decode]

theorem decodesAs_addImm (x : Reg) (nn : Byte) : DecodesAs (formatFXK 0x7#4 x nn) (.addImm x nn) := by
  intro strict; simp [decode]

/-- Every word of op 8 is decoded on its low nibble (R77), whatever `STRICT_LOW_NIBBLE` is. -/
theorem decode_formatFXYN_op8 (strict : Bool) (x y : Reg) (n : Nibble) :
    decode strict (formatFXYN 0x8#4 x y n) = decodeOp8 (formatFXYN 0x8#4 x y n) := by
  simp [decode]

theorem decodesAs_addReg (x y : Reg) : DecodesAs (formatFXYN 0x8#4 x y 0x4#4) (.addReg x y) := by
  intro strict; simp [decode_formatFXYN_op8, decodeOp8]

theorem decodesAs_sub (x y : Reg) : DecodesAs (formatFXYN 0x8#4 x y 0x5#4) (.sub x y) := by
  intro strict; simp [decode_formatFXYN_op8, decodeOp8]

/-! ## What the instructions answer -/

theorem exec_ldImm (x : Reg) (nn : Byte) (s : State) : exec (.ldImm x nn) s = .next (s.writeV x nn) := rfl

theorem exec_addImm (x : Reg) (nn : Byte) (s : State) :
    exec (.addImm x nn) s = .next (s.writeV x (addResult (s.readV x) nn)) := rfl

theorem exec_addReg (x y : Reg) (s : State) : exec (.addReg x y) s =
    .next (s.writeFlagged x (addResult (s.readV x) (s.readV y)) (addCarry (s.readV x) (s.readV y))) := rfl

theorem exec_sub (x y : Reg) (s : State) : exec (.sub x y) s =
    .next (s.writeFlagged x (subResult (s.readV x) (s.readV y)) (noBorrow (s.readV x) (s.readV y))) := rfl

/-! ## Frames of register writes -/

theorem OnlyChanges.refl (may : Part → Prop) (s : State) : OnlyChanges may s s := by
  intro p _
  cases p with
  | v | pc | i | dt | st | stack | byte | cell | kbd | mode | waitDst | cfg | draws => rfl

/-- A frame that admits `V[x]` still holds after a further write of `V[x]`. -/
theorem OnlyChanges.writeV {may : Part → Prop} {s t : State} {x : Reg} (h : OnlyChanges may s t) (hx : may (.v x))
    (b : Byte) : OnlyChanges may s (t.writeV x b) := by
  intro p hp
  cases p with
  | v r =>
    have hr : r ≠ x := by rintro rfl; exact hp hx
    exact (t.readV_writeV_of_ne b hr).trans (h _ hp)
  | pc | i | dt | st | stack | byte | cell | kbd | mode | waitDst | cfg | draws => exact h _ hp

theorem State.writeV_onlyChanges_v (s : State) (x : Reg) (b : Byte) :
    OnlyChanges (fun p => p = .v x) s (s.writeV x b) :=
  (OnlyChanges.refl (fun p => p = .v x) s).writeV rfl b

/-- In either order of R132, the two writes reach `V[x]` and VF only. -/
theorem State.writeFlagged_onlyChanges_v (s : State) (x : Reg) (result : Byte) (flag : Bool) :
    OnlyChanges (fun p => p = .v x ∨ p = .v vf) s (s.writeFlagged x result flag) := by
  unfold State.writeFlagged
  split
  · exact ((OnlyChanges.refl _ s).writeV (.inr rfl) _).writeV (.inl rfl) _
  · exact ((OnlyChanges.refl _ s).writeV (.inl rfl) _).writeV (.inr rfl) _

/-! ## Flag and result (R132) -/

theorem flagByte_of_true {b : Bool} (h : b = true) : flagByte b = 1#8 := if_pos h

theorem flagByte_of_not_true {b : Bool} (h : ¬ b = true) : flagByte b = 0#8 := if_neg h

/-- What the two writes of R132 leave in the registers, for a result and a flag known as a number and a condition. -/
theorem State.writeFlagged_flagAndResult (s : State) (x : Reg) {result : Byte} {flag : Bool} {value : Nat} {cond : Prop}
    (hresult : result.toNat = value) (hflag : flag = true ↔ cond) :
    FlagAndResult s (s.writeFlagged x result flag) x value cond := by
  have hset : cond → flagByte flag = 1#8 := fun h => flagByte_of_true (hflag.2 h)
  have hclear : ¬ cond → flagByte flag = 0#8 := fun h => flagByte_of_not_true (mt hflag.1 h)
  refine ⟨fun hx => ?other, fun hx horder => ?resultLast, fun hx horder => ?flagLast⟩
  case other => simpa [State.readV_writeFlagged, hx, Ne.symm hx, hresult] using ⟨hset, hclear⟩
  case resultLast => simp [State.readV_writeFlagged, hx, horder, hresult]
  case flagLast => simpa [State.readV_writeFlagged, hx, horder] using ⟨hset, hclear⟩

/-! ## The byte operations as numbers -/

theorem toNat_addResult (a b : Byte) : (addResult a b).toNat = (a.toNat + b.toNat) % 256 :=
  BitVec.toNat_ofNat ..

theorem addCarry_iff (a b : Byte) : addCarry a b = true ↔ a.toNat + b.toNat > 255 := decide_eq_true_iff

theorem toNat_subResult (a b : Byte) : (subResult a b).toNat = (a.toNat + 256 - b.toNat) % 256 := by
  rw [subResult, BitVec.toNat_sub]
  have hb := b.isLt
  omega

theorem noBorrow_iff (a b : Byte) : noBorrow a b = true ↔ a.toNat ≥ b.toNat := decide_eq_true_iff

/-! ## The obligations -/

/-- Settles O7: the load of R130 is one write of `V[x]`. -/
theorem loadImmediateWritesRegister : Obligations.LoadImmediateWritesRegister := by
  intro x nn
  exact ⟨decodesAs_ldImm x nn, fun s =>
    ⟨_, exec_ldImm x nn s, s.readV_writeV_self x nn, s.writeV_onlyChanges_v x nn⟩⟩

/-- Settles O8: the sum of R131 is one write of `V[x]`, so VF is left alone unless it is `x`. -/
theorem addImmediateWrapsWithoutFlag : Obligations.AddImmediateWrapsWithoutFlag := by
  intro x nn
  refine ⟨decodesAs_addImm x nn, fun s => ⟨_, exec_addImm x nn s, ?_, s.writeV_onlyChanges_v x _⟩⟩
  rw [State.readV_writeV_self, toNat_addResult]

/-- Settles O10: R137 writes the truncated sum and its carry by the order of R132. -/
theorem addRegistersWritesSumAndCarry : Obligations.AddRegistersWritesSumAndCarry := by
  intro x y
  exact ⟨decodesAs_addReg x y, fun s => ⟨_, exec_addReg x y s,
    s.writeFlagged_flagAndResult x (toNat_addResult _ _) (addCarry_iff _ _), s.writeFlagged_onlyChanges_v x _ _⟩⟩

/-- Settles O11: R138 writes the truncated difference and its no-borrow flag by the order of R132. -/
theorem subtractWritesDifferenceAndNoBorrow : Obligations.SubtractWritesDifferenceAndNoBorrow := by
  intro x y
  exact ⟨decodesAs_sub x y, fun s => ⟨_, exec_sub x y s,
    s.writeFlagged_flagAndResult x (toNat_subResult _ _) (noBorrow_iff _ _), s.writeFlagged_onlyChanges_v x _ _⟩⟩

end Sys2Proof.Machine
end

section
/-! PROOFS. Display (43_display.md): the clear. The rules: the word decodes as the instruction, the instruction's arm of
`exec`, and what a write of the display leaves unchanged. -/

namespace Sys2Proof.Machine

theorem decodesAs_cls : DecodesAs 0x00E0#16 .cls := by
  intro strict
  cases strict with
  | false | true => decide

theorem exec_cls (s : State) : exec .cls s = .next { s with disp := Display.blank } := rfl

/-- A write of the whole display reaches cells and no other part of the state. -/
theorem State.setDisp_onlyChanges_cell (s : State) (d : Display) :
    OnlyChanges (fun p => ∃ k, p = .cell k) s { s with disp := d } := by
  intro p hp
  cases p with
  | cell k => exact absurd ⟨k, rfl⟩ hp
  | v | pc | i | dt | st | stack | byte | kbd | mode | waitDst | cfg | draws => rfl

/-- Settles O16: R150 puts the blank display in place of the old one and writes nothing else. -/
theorem clearScreenTurnsEveryCellOff : Obligations.ClearScreenTurnsEveryCellOff :=
  ⟨decodesAs_cls, fun s =>
    ⟨_, exec_cls s, fun k _ => Display.cell_blank k, s.setDisp_onlyChanges_cell Display.blank⟩⟩

end Sys2Proof.Machine
end

section
/-! PROOFS. The index register (45_index_memory.md): load-index, add-index and font-addr. The rules: the word decodes as
the instruction, the instruction's arm of `exec`, what a write of I leaves unchanged, and the value written as a
number. -/

namespace Sys2Proof.Machine

/-! ## Words of the index instructions (R73, R83) -/

theorem decodesAs_ldI (nnn : Addr12) : DecodesAs (formatFA 0xA#4 nnn) (.ldI nnn) := by
  intro strict; simp [decode]

/-- Every word of op F is decoded on its low byte (R79), whatever `STRICT_LOW_NIBBLE` is. -/
theorem decode_formatFXK_opF (strict : Bool) (x : Reg) (k : Byte) :
    decode strict (formatFXK 0xF#4 x k) = decodeOpF (formatFXK 0xF#4 x k) := by
  simp [decode]

theorem decodesAs_addI (x : Reg) : DecodesAs (formatFXK 0xF#4 x 0x1E#8) (.addI x) := by
  intro strict; simp [decode_formatFXK_opF, decodeOpF]

theorem decodesAs_ldF (x : Reg) : DecodesAs (formatFXK 0xF#4 x 0x29#8) (.ldF x) := by
  intro strict; simp [decode_formatFXK_opF, decodeOpF]

/-! ## What the instructions answer -/

theorem exec_ldI (nnn : Addr12) (s : State) : exec (.ldI nnn) s = .next { s with i := zext16OfAddr nnn } := rfl

theorem exec_addI (x : Reg) (s : State) :
    exec (.addI x) s = .next { s with i := s.i + zext16OfByte (s.readV x) } := rfl

theorem exec_ldF (x : Reg) (s : State) : exec (.ldF x) s = .next { s with i := glyphAddr (s.readV x) } := rfl

/-! ## The frame of a write of I -/

/-- A write of I reaches no register, VF among them, and no other part of the state. -/
theorem State.setI_onlyChanges_i (s : State) (a : Word) : OnlyChanges (fun p => p = .i) s { s with i := a } := by
  intro p hp
  cases p with
  | i => exact absurd rfl hp
  | v | pc | dt | st | stack | byte | cell | kbd | mode | waitDst | cfg | draws => rfl

/-! ## Index values as numbers -/

/-- The sum of R171 is kept modulo 2^16. -/
theorem toNat_add_zext16OfByte (a : Word) (b : Byte) : (a + zext16OfByte b).toNat = (a.toNat + b.toNat) % 65536 := by
  rw [BitVec.toNat_add, toNat_zext16OfByte]

/-- The product of R172 is exact: it is at most 255 * 5, so keeping 16 bits loses nothing. -/
theorem toNat_glyphAddr (b : Byte) : (glyphAddr b).toNat = b.toNat * 5 := by
  have hfits : (zext16OfByte b).toNat * (5#16 : Word).toNat < 2 ^ 16 := by
    rw [toNat_zext16OfByte, BitVec.toNat_ofNat]
    have hByte := b.isLt
    omega
  rw [glyphAddr, BitVec.toNat_mul_of_lt hfits, toNat_zext16OfByte, BitVec.toNat_ofNat]

/-! ## The obligations -/

/-- Settles O23: the load of R170 writes the zero-extended address to I and nothing else. -/
theorem loadIndexWritesAddress : Obligations.LoadIndexWritesAddress := by
  intro nnn
  exact ⟨decodesAs_ldI nnn, fun s => ⟨_, exec_ldI nnn s, toNat_zext16OfAddr nnn, s.setI_onlyChanges_i _⟩⟩

/-- Settles O24: the sum of R171 is one write of I, so no overflow reaches VF. -/
theorem addIndexWrapsWithoutFlag : Obligations.AddIndexWrapsWithoutFlag := by
  intro x
  exact ⟨decodesAs_addI x, fun s => ⟨_, exec_addI x s, toNat_add_zext16OfByte _ _, s.setI_onlyChanges_i _⟩⟩

/-- Settles O25: I takes the exact product of R172 with the whole byte, and nothing else changes. -/
theorem fontAddressIsFiveTimesByte : Obligations.FontAddressIsFiveTimesByte := by
  intro x
  exact ⟨decodesAs_ldF x, fun s => ⟨_, exec_ldF x s, toNat_glyphAddr _, s.setI_onlyChanges_i _⟩⟩

end Sys2Proof.Machine
end

section
/-! PROOFS. The decoder and the encoder (30_encoding.md): each undoes the other, and a word decodes exactly when a row of the
opcode table covers it. -/

namespace Sys2Proof

open Machine

/-! ## Decoding an encoded instruction -/

/-- Every word of op E is decoded on its low byte (R78), whatever `STRICT_LOW_NIBBLE` is. -/
theorem decode_formatFXK_opE (strict : Bool) (x : Reg) (k : Byte) :
    decode strict (formatFXK 0xE#4 x k) = decodeOpE (formatFXK 0xE#4 x k) := by
  simp [decode]

theorem decodeRegSkip_formatFXYN (strict : Bool) (make : Reg → Reg → Nibble → Instr) (op : Nibble) (x y : Reg)
    (n : Nibble) : decodeRegSkip strict make (formatFXYN op x y n) =
      if !strict || n == 0#4 then .instr (make x y n) else .unsupported (formatFXYN op x y n) := by
  cases strict <;> by_cases hn : n = 0#4 <;> simp [decodeRegSkip, hn]

/-- The words of op 5 have an instruction exactly when their low nibble passes the check of R80. -/
theorem decode_formatFXYN_op5 (strict : Bool) (x y : Reg) (n : Nibble) : decode strict (formatFXYN 0x5#4 x y n) =
    if Instr.wellFormed strict (.seReg x y n) then .instr (.seReg x y n)
    else .unsupported (formatFXYN 0x5#4 x y n) := by
  rw [show decode strict (formatFXYN 0x5#4 x y n) = decodeRegSkip strict .seReg (formatFXYN 0x5#4 x y n) by simp [decode]]
  exact decodeRegSkip_formatFXYN ..

theorem decode_formatFXYN_op9 (strict : Bool) (x y : Reg) (n : Nibble) : decode strict (formatFXYN 0x9#4 x y n) =
    if Instr.wellFormed strict (.sneReg x y n) then .instr (.sneReg x y n)
    else .unsupported (formatFXYN 0x9#4 x y n) := by
  rw [show decode strict (formatFXYN 0x9#4 x y n) = decodeRegSkip strict .sneReg (formatFXYN 0x9#4 x y n) by simp [decode]]
  exact decodeRegSkip_formatFXYN ..

/-- The fields of a formatted word are its operands, so the branch of the decoder on the op, and on the sub-op of ops 8, E
and F, finds the instruction again. -/
theorem decode_encode {strict : Bool} {i : Instr} (hwf : i.wellFormed strict = true) :
    decode strict (encode i) = .instr i := by
  cases i with
  | cls | ret => cases strict <;> rfl
  | jp | call | seImm | sneImm | ldImm | addImm | ldI | jpV0 | rnd | drw => simp [encode, decode]
  | ldReg | orReg | andReg | xorReg | addReg | sub | shr | subn | shl =>
    simp [encode, decode_formatFXYN_op8, decodeOp8]
  | seReg x y n => rw [encode, decode_formatFXYN_op5, if_pos hwf]
  | sneReg x y n => rw [encode, decode_formatFXYN_op9, if_pos hwf]
  | skp | sknp => simp [encode, decode_formatFXK_opE, decodeOpE]
  | ldVxDt | ldVxK | ldDtVx | ldStVx | addI | ldF | ldB | ldMemStore | ldMemLoad =>
    simp [encode, decode_formatFXK_opF, decodeOpF]

/-- An instruction that is well-formed under both decoders is what its encoding decodes as. -/
theorem decodesAs_encode (i : Instr) (hwf : ∀ strict, i.wellFormed strict = true) : DecodesAs (encode i) i :=
  fun strict => decode_encode (hwf strict)

/-- Settles O49, by the case split of `decode_encode` over the 34 instructions. -/
theorem decodeOfEncodeIsIdentity : Obligations.DecodeOfEncodeIsIdentity :=
  fun _ _ hwf => decode_encode hwf

/-! ## Encoding a decoded instruction -/

theorem formatFA_of_opOf {w : Word} {op : Nibble} (hop : opOf w = op) : formatFA op (nnnOf w) = w := by
  rw [← hop, formatFA_fields]

theorem formatFXK_of_opOf {w : Word} {op : Nibble} (hop : opOf w = op) : formatFXK op (xOf w) (nnOf w) = w := by
  rw [← hop, formatFXK_fields]

theorem formatFXYN_of_opOf {w : Word} {op : Nibble} (hop : opOf w = op) :
    formatFXYN op (xOf w) (yOf w) (nOf w) = w := by
  rw [← hop, formatFXYN_fields]

theorem formatFXYN_of_opOf_nOf {w : Word} {op n : Nibble} (hop : opOf w = op) (hn : nOf w = n) :
    formatFXYN op (xOf w) (yOf w) n = w := by
  rw [← hn, formatFXYN_of_opOf hop]

theorem formatFXK_of_opOf_nnOf {w : Word} {op : Nibble} {k : Byte} (hop : opOf w = op) (hk : nnOf w = k) :
    formatFXK op (xOf w) k = w := by
  rw [← hk, formatFXK_of_opOf hop]

theorem encode_of_decodeOp0 {w : Word} {i : Instr} (h : decodeOp0 w = .instr i) (strict : Bool) :
    encode i = w ∧ i.wellFormed strict = true := by
  unfold decodeOp0 at h
  split at h
  case isTrue hw => cases h; exact ⟨hw.symm, rfl⟩
  case isFalse =>
    split at h
    case isTrue hw => cases h; exact ⟨hw.symm, rfl⟩
    case isFalse => cases h

/-- The instruction of a word of op 5 or 9 carries the low nibble, whether or not it was checked (log 27). -/
theorem decodeRegSkip_eq_instr {strict : Bool} {make : Reg → Reg → Nibble → Instr} {w : Word} {i : Instr}
    (h : decodeRegSkip strict make w = .instr i) :
    i = make (xOf w) (yOf w) (nOf w) ∧ (!strict || nOf w == 0#4) = true := by
  unfold decodeRegSkip at h
  split at h
  case isTrue => cases h
  case isFalse hn => cases h; exact ⟨rfl, by simpa [imp_iff_not_or] using hn⟩

theorem encode_of_decodeOp8 {w : Word} {i : Instr} (hop : opOf w = 0x8#4) (h : decodeOp8 w = .instr i) (strict : Bool) :
    encode i = w ∧ i.wellFormed strict = true := by
  unfold decodeOp8 at h
  split at h <;> cases h
  all_goals exact ⟨formatFXYN_of_opOf_nOf hop (BitVec.eq_of_toNat_eq ‹_›), rfl⟩

theorem encode_of_decodeOpE {w : Word} {i : Instr} (hop : opOf w = 0xE#4) (h : decodeOpE w = .instr i) (strict : Bool) :
    encode i = w ∧ i.wellFormed strict = true := by
  unfold decodeOpE at h
  repeat' split at h
  all_goals cases h
  all_goals exact ⟨formatFXK_of_opOf_nnOf hop ‹_›, rfl⟩

theorem encode_of_decodeOpF {w : Word} {i : Instr} (hop : opOf w = 0xF#4) (h : decodeOpF w = .instr i) (strict : Bool) :
    encode i = w ∧ i.wellFormed strict = true := by
  unfold decodeOpF at h
  repeat' split at h
  all_goals cases h
  all_goals exact ⟨formatFXK_of_opOf_nnOf hop ‹_›, rfl⟩

/-- The decoder only takes a word apart: every bit of a word it accepts is the op, a sub-op it has checked, or an operand of
the instruction. -/
theorem encode_of_decode {strict : Bool} {w : Word} {i : Instr} (h : decode strict w = .instr i) :
    encode i = w ∧ i.wellFormed strict = true := by
  unfold decode at h
  split at h
  case h_1 => exact encode_of_decodeOp0 h strict
  case h_6 hop =>
    obtain ⟨rfl, hn⟩ := decodeRegSkip_eq_instr h
    exact ⟨formatFXYN_of_opOf (BitVec.eq_of_toNat_eq hop), hn⟩
  case h_9 hop => exact encode_of_decodeOp8 (BitVec.eq_of_toNat_eq hop) h strict
  case h_10 hop =>
    obtain ⟨rfl, hn⟩ := decodeRegSkip_eq_instr h
    exact ⟨formatFXYN_of_opOf (BitVec.eq_of_toNat_eq hop), hn⟩
  case h_14 hop => cases h; exact ⟨formatFXYN_of_opOf (BitVec.eq_of_toNat_eq hop), rfl⟩
  case h_15 hop => exact encode_of_decodeOpE (BitVec.eq_of_toNat_eq hop) h strict
  case h_16 hop => exact encode_of_decodeOpF (BitVec.eq_of_toNat_eq hop) h strict
  case h_17 => cases h
  case h_2 hop | h_3 hop | h_11 hop | h_12 hop =>
    cases h; exact ⟨formatFA_of_opOf (BitVec.eq_of_toNat_eq hop), rfl⟩
  case h_4 hop | h_5 hop | h_7 hop | h_8 hop | h_13 hop =>
    cases h; exact ⟨formatFXK_of_opOf (BitVec.eq_of_toNat_eq hop), rfl⟩

/-- Settles O50, from the fields that each branch of the decoder has read. -/
theorem encodeOfDecodeIsIdentity : Obligations.EncodeOfDecodeIsIdentity :=
  fun _ _ _ h => encode_of_decode h

/-! ## The opcode table -/

theorem OpcodeRow.covers_iff (row : OpcodeRow) (w : Word) : row.covers w = true ↔ w &&& row.mask = row.pattern :=
  beq_iff_eq

/-- A row whose mask keeps the whole of a field fixes that field of the words it covers. -/
theorem OpcodeRow.field_of_covers {row : OpcodeRow} {w : Word} (hw : row.covers w = true) {start len : Nat}
    (hmask : row.mask.extractLsb' start len = BitVec.allOnes len) :
    w.extractLsb' start len = row.pattern.extractLsb' start len := by
  rw [← (row.covers_iff w).1 hw, BitVec.extractLsb'_and, hmask, BitVec.and_allOnes]

theorem OpcodeRow.eq_pattern_of_covers {row : OpcodeRow} {w : Word} (hw : row.covers w = true)
    (hmask : row.mask = BitVec.allOnes 16) : w = row.pattern := by
  rw [← (row.covers_iff w).1 hw, hmask, BitVec.and_allOnes]

/-- The rows SE_reg and SNE_reg, whose mask keeps the low nibble exactly when the decoder checks it (R80). -/
theorem exists_instr_of_op5_op9 {strict : Bool} {mnemonic : String} {pattern w : Word}
    (hw : OpcodeRow.covers ⟨mnemonic, pattern, regSkipMask strict⟩ w = true) (hn : nOf pattern = 0#4)
    (hop : opOf pattern = 0x5#4 ∨ opOf pattern = 0x9#4) : ∃ i, decode strict w = .instr i := by
  have hopw : opOf w = opOf pattern :=
    OpcodeRow.field_of_covers hw (show (regSkipMask strict).extractLsb' 12 4 = _ by cases strict <;> rfl)
  have hlow : (strict && nOf w != 0#4) = false := by
    cases strict with
    | false => rfl
    | true =>
      have hnw : nOf w = nOf pattern :=
        OpcodeRow.field_of_covers hw (show (regSkipMask true).extractLsb' 0 4 = _ from rfl)
      simp [hnw, hn]
  rcases hop with hop | hop <;> simp [decode, hopw, hop, decodeRegSkip, hlow]

theorem exists_instr_of_opcodeRowsLow {strict : Bool} {row : OpcodeRow} (hrow : row ∈ opcodeRowsLow strict) {w : Word}
    (hw : row.covers w = true) : ∃ i, decode strict w = .instr i := by
  simp only [opcodeRowsLow, List.mem_cons, List.not_mem_nil, or_false] at hrow
  rcases hrow with rfl | rfl | rfl | rfl | rfl | rfl | rfl | rfl | rfl
  -- CLS and RET are compared as whole words; SE_reg has the mask of R80; the other rows fix the op.
  case inl | inr.inl =>
    rw [OpcodeRow.eq_pattern_of_covers hw rfl]
    cases strict <;> exact ⟨_, rfl⟩
  case inr.inr.inr.inr.inr.inr.inl => exact exists_instr_of_op5_op9 hw rfl (.inl rfl)
  all_goals
    have hop : opOf w = _ := OpcodeRow.field_of_covers hw rfl
    simp [decode, hop]

theorem exists_instr_of_opcodeRowsAlu {strict : Bool} {row : OpcodeRow} (hrow : row ∈ opcodeRowsAlu) {w : Word}
    (hw : row.covers w = true) : ∃ i, decode strict w = .instr i := by
  simp only [opcodeRowsAlu, List.mem_cons, List.not_mem_nil, or_false] at hrow
  rcases hrow with rfl | rfl | rfl | rfl | rfl | rfl | rfl | rfl | rfl
  all_goals
    have hop : opOf w = 0x8#4 := OpcodeRow.field_of_covers hw rfl
    have hn : nOf w = _ := OpcodeRow.field_of_covers hw rfl
    simp [decode, decodeOp8, hop, hn]

theorem exists_instr_of_opcodeRowsHigh {strict : Bool} {row : OpcodeRow} (hrow : row ∈ opcodeRowsHigh strict) {w : Word}
    (hw : row.covers w = true) : ∃ i, decode strict w = .instr i := by
  simp only [opcodeRowsHigh, List.mem_cons, List.not_mem_nil, or_false] at hrow
  rcases hrow with rfl | rfl | rfl | rfl | rfl | hrow
  -- SNE_reg has the mask of R80, the rows of ops E and F fix op and low byte, the others the op.
  case inl => exact exists_instr_of_op5_op9 hw rfl (.inr rfl)
  case inr.inr.inr.inr.inr =>
    rcases hrow with rfl | rfl | rfl | rfl | rfl | rfl | rfl | rfl | rfl | rfl | rfl
    all_goals
      have hop : opOf w = _ := OpcodeRow.field_of_covers hw rfl
      have hnn : nnOf w = _ := OpcodeRow.field_of_covers hw rfl
      simp [decode, decodeOpE, decodeOpF, hop, hnn]
  all_goals
    have hop : opOf w = _ := OpcodeRow.field_of_covers hw rfl
    simp [decode, hop]

/-- A covered word is decoded: the row's mask keeps every bit the decoder checks. -/
theorem exists_instr_of_covers {strict : Bool} {row : OpcodeRow} (hrow : row ∈ opcodeTable strict) {w : Word}
    (hw : row.covers w = true) : ∃ i, decode strict w = .instr i := by
  simp only [opcodeTable, List.mem_append] at hrow
  rcases hrow with (hlow | halu) | hhigh
  · exact exists_instr_of_opcodeRowsLow hlow hw
  · exact exists_instr_of_opcodeRowsAlu halu hw
  · exact exists_instr_of_opcodeRowsHigh hhigh hw

namespace Laws.InRow

/-- The statements of the family, gathered over the 34 instructions. -/
theorem statement (i : Instr) : Statement i := by
  cases i with
  | cls => exact cls
  | ret => exact ret
  | jp nnn => exact jp nnn
  | call nnn => exact call nnn
  | seImm x nn => exact seImm x nn
  | sneImm x nn => exact sneImm x nn
  | seReg x y n => exact seReg x y n
  | ldImm x nn => exact ldImm x nn
  | addImm x nn => exact addImm x nn
  | ldReg x y => exact ldReg x y
  | orReg x y => exact orReg x y
  | andReg x y => exact andReg x y
  | xorReg x y => exact xorReg x y
  | addReg x y => exact addReg x y
  | sub x y => exact sub x y
  | shr x y => exact shr x y
  | subn x y => exact subn x y
  | shl x y => exact shl x y
  | sneReg x y n => exact sneReg x y n
  | ldI nnn => exact ldI nnn
  | jpV0 nnn => exact jpV0 nnn
  | rnd x nn => exact rnd x nn
  | drw x y n => exact drw x y n
  | skp x => exact skp x
  | sknp x => exact sknp x
  | ldVxDt x => exact ldVxDt x
  | ldVxK x => exact ldVxK x
  | ldDtVx x => exact ldDtVx x
  | ldStVx x => exact ldStVx x
  | addI x => exact addI x
  | ldF x => exact ldF x
  | ldB x => exact ldB x
  | ldMemStore x => exact ldMemStore x
  | ldMemLoad x => exact ldMemLoad x

end Laws.InRow

/-- A decoded word is covered: it is its instruction's encoding, which lies in the instruction's row. -/
theorem exists_covers_of_decode {strict : Bool} {w : Word} {i : Instr} (h : decode strict w = .instr i) :
    ∃ row ∈ opcodeTable strict, row.covers w = true := by
  obtain ⟨rfl, hwf⟩ := encode_of_decode h
  obtain ⟨row, hrow, -, hcovers⟩ := Laws.InRow.statement i strict hwf
  exact ⟨row, hrow, hcovers⟩

/-- Settles O51: the decoder accepts the covered words and no other, and answers a refused word itself. -/
theorem unsupportedExactlyOutsideOpcodeTable : Obligations.UnsupportedExactlyOutsideOpcodeTable := by
  refine fun strict w => ⟨⟨fun hd row hrow => ?uncovered, fun hnone => ?refused⟩, fun w' => decode_unsupported_word⟩
  case uncovered =>
    refine Bool.eq_false_iff.2 fun hw => ?_
    obtain ⟨i, hi⟩ := exists_instr_of_covers hrow hw
    rw [hd] at hi
    cases hi
  case refused =>
    cases hd : decode strict w with
    | unsupported w' => rw [decode_unsupported_word hd]
    | instr i =>
      obtain ⟨row, hrow, hw⟩ := exists_covers_of_decode hd
      rw [hnone row hrow] at hw
      cases hw

/-- Two rows of the table whose patterns agree on the bits of both masks are one row. -/
theorem opcodeTable_apart (strict : Bool) : ∀ r ∈ opcodeTable strict, ∀ r' ∈ opcodeTable strict,
    r.pattern &&& r'.mask = r'.pattern &&& r.mask → r = r' := by
  cases strict <;> decide

/-- Settles O52: one word under two masks makes the patterns agree on the bits of both. -/
theorem opcodeRowsDoNotOverlap : Obligations.OpcodeRowsDoNotOverlap := by
  intro strict w r r' hr hr' hw hw'
  apply opcodeTable_apart strict r hr r' hr'
  rw [← (r.covers_iff w).1 hw, ← (r'.covers_iff w).1 hw', BitVec.and_assoc, BitVec.and_assoc,
    BitVec.and_comm r.mask]

/-- Settles O53, by running the decoder. -/
theorem tableOfDecodedWordsHolds : Obligations.TableOfDecodedWordsHolds := by
  unfold Obligations.TableOfDecodedWordsHolds; decide

end Sys2Proof
end

section
/-! PROOFS. The instructions not settled above, one by one: what each answers, its frame, and the values it writes. The
words decode by `decodesAs_encode`. -/

namespace Sys2Proof.Machine

/-! ## Frames -/

/-- A frame may be widened. -/
theorem OnlyChanges.mono {may may' : Part → Prop} {s t : State} (h : OnlyChanges may s t) (hle : ∀ p, may p → may' p) :
    OnlyChanges may' s t :=
  fun p hp => h p (mt (hle p) hp)

theorem State.takeFault_onlyChanges_mode (s : State) (f : CoreFault) :
    OnlyChanges (fun p => p = .mode) s (s.takeFault f) := by
  intro p hp
  cases p with
  | mode => exact absurd rfl hp
  | v | pc | i | dt | st | stack | byte | cell | kbd | waitDst | cfg | draws => rfl

theorem State.setPcStack_onlyChanges (s : State) (target : Word) (stack : List Word) :
    OnlyChanges (fun p => p = .pc ∨ p = .stack) s ({ s with stack := stack }.jumpTo target) := by
  intro p hp
  cases p with
  | pc => exact absurd (.inl rfl) hp
  | stack => exact absurd (.inr rfl) hp
  | v | i | dt | st | byte | cell | kbd | mode | waitDst | cfg | draws => rfl

theorem State.setDt_onlyChanges_dt (s : State) (b : Byte) : OnlyChanges (fun p => p = .dt) s { s with dt := b } := by
  intro p hp
  cases p with
  | dt => exact absurd rfl hp
  | v | pc | i | st | stack | byte | cell | kbd | mode | waitDst | cfg | draws => rfl

theorem State.setSt_onlyChanges_st (s : State) (b : Byte) : OnlyChanges (fun p => p = .st) s { s with st := b } := by
  intro p hp
  cases p with
  | st => exact absurd rfl hp
  | v | pc | i | dt | stack | byte | cell | kbd | mode | waitDst | cfg | draws => rfl

theorem State.await_onlyChanges (s : State) (x : Reg) :
    OnlyChanges (fun p => p = .mode ∨ p = .waitDst ∨ p = .pc) s
      { s.rewindPc with mode := .awaitingKey, waitDst := x } := by
  intro p hp
  cases p with
  | mode => exact absurd (.inl rfl) hp
  | waitDst => exact absurd (.inr (.inl rfl)) hp
  | pc => exact absurd (.inr (.inr rfl)) hp
  | v | i | dt | st | stack | byte | cell | kbd | cfg | draws => rfl

/-- A run of byte writes reaches its own bytes only, each address reduced on its own (R51). -/
theorem State.writeBytes_onlyChanges_byte (s : State) (a : Nat) (bs : List Byte) :
    OnlyChanges (fun p => ∃ c, p = .byte c ∧ InBytes a bs.length c) s (s.writeBytes a bs) := by
  intro p hp
  cases p with
  | byte c => exact s.readByte_writeBytes_of_not_in a bs c fun hc => hp ⟨c, rfl, hc⟩
  | v r => exact State.readV_congr (s.writeBytes_v a bs) r
  | cell k => exact congrArg (Display.cell · k) (s.writeBytes_disp a bs)
  | pc | i | dt | st | stack | kbd | mode | waitDst | cfg | draws => simp [Part.same]

/-- load-regs of `n` registers reaches those registers only. -/
theorem State.loadRegs_onlyChanges_v (s : State) {n : Nat} (hn : n ≤ 16) :
    OnlyChanges (fun p => ∃ r : Reg, r.toNat < n ∧ p = .v r) s (s.loadRegs n) := by
  intro p hp
  cases p with
  | v r =>
    have hr : ¬ r.toNat < n := fun hlt => hp ⟨r, hlt, rfl⟩
    exact (s.readV_loadRegs n hn r).trans (if_neg hr)
  | byte a => exact State.readByte_congr (s.loadRegs_cfg n) (s.loadRegs_mem n) a
  | cell k => exact congrArg (Display.cell · k) (s.loadRegs_disp n)
  | pc | i | dt | st | stack | kbd | mode | waitDst | cfg | draws => simp [Part.same]

theorem State.drawn_onlyChanges (s : State) (d : Display) (b : Byte) :
    OnlyChanges (fun p => p = .v vf ∨ ∃ k, p = .cell k) s ({ s with disp := d }.writeV vf b) :=
  ((s.setDisp_onlyChanges_cell d).mono fun _ => .inr).writeV (.inl rfl) b

/-! ## Return and call (R120, R122) -/

theorem exec_ret (s : State) : exec .ret s = .next (s.pop fun a t => t.jumpTo a) := rfl

theorem exec_ret_empty {s : State} (h : s.stack = []) :
    exec .ret s = .next (s.takeFault (.precondition .stackUnderflow)) := by
  rw [exec_ret, State.pop_nil _ h]

theorem exec_ret_nonempty {s : State} {a : Word} {rest : List Word} (h : s.stack = a :: rest) :
    exec .ret s = .next ({ s with stack := rest }.jumpTo a) := by
  rw [exec_ret, State.pop_cons _ h]

theorem exec_call (nnn : Addr12) (s : State) :
    exec (.call nnn) s = .next (s.push s.pc fun t => t.jumpTo (zext16OfAddr nnn)) := rfl

theorem exec_call_full (nnn : Addr12) {s : State} (h : s.cfg.stackDepth = some s.stack.length) :
    exec (.call nnn) s = .next (s.takeFault .stackOverflow) := by
  rw [exec_call, State.push_full _ _ (s.stackFull_iff.2 h)]

theorem exec_call_notFull (nnn : Addr12) {s : State} (h : s.cfg.stackDepth ≠ some s.stack.length) :
    exec (.call nnn) s = .next ({ s with stack := s.pc :: s.stack }.jumpTo (zext16OfAddr nnn)) := by
  rw [exec_call, State.push_notFull _ _ (mt s.stackFull_iff.1 h)]

/-- Settles O1, by the two cases of the stack; the whole faulting step is the commit of the second. -/
theorem returnPopsStackIntoPc : Obligations.ReturnPopsStackIntoPc := by
  refine ⟨decodesAs_encode .ret fun _ => rfl, fun s a rest hs => ?nonempty, fun s hs => ?empty, fun s hm hd hs => ?step⟩
  case nonempty => exact ⟨_, exec_ret_nonempty hs, rfl, rfl, s.setPcStack_onlyChanges a rest⟩
  case empty => exact ⟨_, exec_ret_empty hs, rfl, s.takeFault_onlyChanges_mode _⟩
  case step =>
    rw [step_instr hm hd (exec_ret_empty hs), State.commit_of_faulted rfl]
    rfl

/-- Settles O3, by whether the stack is full; the whole faulting step is the commit of that case. -/
theorem callPushesPcAndJumps : Obligations.CallPushesPcAndJumps := by
  intro nnn
  refine ⟨decodesAs_encode (.call nnn) fun _ => rfl, fun s hs => ?notFull, fun s hs => ?full, fun s hm hd hs => ?step⟩
  case notFull =>
    exact ⟨_, exec_call_notFull nnn hs, rfl, toNat_zext16OfAddr nnn, s.setPcStack_onlyChanges _ _⟩
  case full => exact ⟨_, exec_call_full nnn hs, rfl, s.takeFault_onlyChanges_mode _⟩
  case step =>
    rw [step_instr hm hd (exec_call_full nnn hs), State.commit_of_faulted rfl]
    rfl

/-! ## Register skips and key tests (R125, R126, R160, R161) -/

theorem exec_seReg (x y : Reg) (n : Nibble) (s : State) :
    exec (.seReg x y n) s = .next (s.skipIf (s.readV x == s.readV y)) := rfl

theorem exec_sneReg (x y : Reg) (n : Nibble) (s : State) :
    exec (.sneReg x y n) s = .next (s.skipIf (s.readV x != s.readV y)) := rfl

theorem exec_skp (x : Reg) (s : State) : exec (.skp x) s = .next (s.skipIf (s.keyOperand x)) := rfl

theorem exec_sknp (x : Reg) (s : State) : exec (.sknp x) s = .next (s.skipIf (!s.keyOperand x)) := rfl

/-- Settles O5: the low nibble decides the decoding (R80), and the skip conditions are negations of each other. -/
theorem registerSkipsCompareRegisters : Obligations.RegisterSkipsCompareRegisters := by
  intro x y n
  have hlow : n = 0#4 ↔ (!true || n == 0#4) = true := by simp
  refine ⟨?strict5, ?strict9, decode_formatFXYN_op5 false x y n, decode_formatFXYN_op9 false x y n, fun s =>
    ⟨_, _, exec_seReg x y n s, exec_sneReg x y n s, ?equal, ?differ, s.skipIf_onlyChanges_pc _, s.skipIf_onlyChanges_pc _⟩⟩
  case strict5 => simp only [hlow]; exact decode_formatFXYN_op5 true x y n
  case strict9 => simp only [hlow]; exact decode_formatFXYN_op9 true x y n
  case equal => intro h; simp [h]
  case differ => intro h; simp [h]

/-- `held` as R160 and R167 describe it, by the size of the key index. -/
theorem State.keyOperand_eq {s : State} {x : Reg} {held : Bool}
    (hkey : (s.readV x).toNat ≤ 15 → held = s.kbd.getLsbD (s.readV x).toNat)
    (hfree : 15 < (s.readV x).toNat → held = Config.drawBool s.draws) : s.keyOperand x = held := by
  unfold State.keyOperand keyHeld
  split
  case isTrue h => exact (hkey h).symm
  case isFalse h => exact (hfree (Nat.lt_of_not_le h)).symm

/-- Settles O19: both tests skip on the one condition of `keyOperand_eq`, SKNP on its negation. -/
theorem keyTestsSkipOnKeyHeld : Obligations.KeyTestsSkipOnKeyHeld := by
  intro x
  refine ⟨decodesAs_encode (.skp x) fun _ => rfl, decodesAs_encode (.sknp x) fun _ => rfl, fun s =>
    ⟨_, _, exec_skp x s, exec_sknp x s, fun held hkey hfree => ?_, s.skipIf_onlyChanges_pc _, s.skipIf_onlyChanges_pc _⟩⟩
  rw [State.keyOperand_eq hkey hfree]
  cases held with
  | false | true => simp

/-! ## Register writes (R133 to R142, R162) -/

theorem exec_ldReg (x y : Reg) (s : State) : exec (.ldReg x y) s = .next (s.writeV x (s.readV y)) := rfl

theorem exec_orReg (x y : Reg) (s : State) :
    exec (.orReg x y) s = .next (s.writeV x (s.readV x ||| s.readV y)) := rfl

theorem exec_andReg (x y : Reg) (s : State) :
    exec (.andReg x y) s = .next (s.writeV x (s.readV x &&& s.readV y)) := rfl

theorem exec_xorReg (x y : Reg) (s : State) :
    exec (.xorReg x y) s = .next (s.writeV x (s.readV x ^^^ s.readV y)) := rfl

theorem exec_shr (x y : Reg) (s : State) :
    exec (.shr x y) s = .next (s.writeFlagged x (shrResult (s.readV x)) (shrOut (s.readV x))) := rfl

theorem exec_subn (x y : Reg) (s : State) : exec (.subn x y) s =
    .next (s.writeFlagged x (subResult (s.readV y) (s.readV x)) (noBorrow (s.readV y) (s.readV x))) := rfl

theorem exec_shl (x y : Reg) (s : State) :
    exec (.shl x y) s = .next (s.writeFlagged x (shlResult (s.readV x)) (shlOut (s.readV x))) := rfl

theorem exec_rnd (x : Reg) (nn : Byte) (s : State) :
    exec (.rnd x nn) s = .next (s.writeV x (Config.drawByte s.draws &&& nn)) := rfl

theorem exec_ldVxDt (x : Reg) (s : State) : exec (.ldVxDt x) s = .next (s.writeV x s.dt) := rfl

theorem toNat_shrResult (a : Byte) : (shrResult a).toNat = a.toNat / 2 := by
  rw [shrResult, BitVec.toNat_ushiftRight, Nat.shiftRight_eq_div_pow, Nat.pow_one]

theorem shrOut_iff (a : Byte) : shrOut a = true ↔ a.toNat % 2 = 1 := by
  rw [shrOut, BitVec.getLsbD, Nat.testBit_zero, decide_eq_true_iff]

theorem toNat_shlResult (a : Byte) : (shlResult a).toNat = a.toNat * 2 % 256 := by
  rw [shlResult, BitVec.toNat_shiftLeft, Nat.shiftLeft_eq, Nat.pow_one]

theorem shlOut_iff (a : Byte) : shlOut a = true ↔ a.toNat ≥ 128 := by
  rw [shlOut, ← BitVec.msb_eq_getLsbD_last, BitVec.msb_eq_decide, decide_eq_true_iff]

/-- Settles O9: each of R133 to R136 is one write of `V[x]`, so VF is left alone unless it is `x`. -/
theorem assignAndLogicWriteOnlyDestination : Obligations.AssignAndLogicWriteOnlyDestination := by
  intro x y
  refine ⟨decodesAs_encode (.ldReg x y) fun _ => rfl, decodesAs_encode (.orReg x y) fun _ => rfl,
    decodesAs_encode (.andReg x y) fun _ => rfl, decodesAs_encode (.xorReg x y) fun _ => rfl, fun s =>
    ⟨⟨_, exec_ldReg x y s, ?_⟩, ⟨_, exec_orReg x y s, ?_⟩, ⟨_, exec_andReg x y s, ?_⟩, ⟨_, exec_xorReg x y s, ?_⟩⟩⟩
  all_goals exact ⟨s.readV_writeV_self x _, s.writeV_onlyChanges_v x _⟩

/-- Settles O12: R139 writes the half and the bit shifted out by the order of R132. -/
theorem shiftRightHalvesAndKeepsLowBit : Obligations.ShiftRightHalvesAndKeepsLowBit := by
  intro x y
  exact ⟨decodesAs_encode (.shr x y) fun _ => rfl, fun s => ⟨_, exec_shr x y s,
    s.writeFlagged_flagAndResult x (toNat_shrResult _) (shrOut_iff _), s.writeFlagged_onlyChanges_v x _ _⟩⟩

/-- Settles O13: R140 is R138 with its operands exchanged. -/
theorem reverseSubtractWritesDifferenceAndNoBorrow : Obligations.ReverseSubtractWritesDifferenceAndNoBorrow := by
  intro x y
  exact ⟨decodesAs_encode (.subn x y) fun _ => rfl, fun s => ⟨_, exec_subn x y s,
    s.writeFlagged_flagAndResult x (toNat_subResult _ _) (noBorrow_iff _ _), s.writeFlagged_onlyChanges_v x _ _⟩⟩

/-- Settles O14: R141 writes the truncated double and the bit shifted out by the order of R132. -/
theorem shiftLeftDoublesAndKeepsHighBit : Obligations.ShiftLeftDoublesAndKeepsHighBit := by
  intro x y
  exact ⟨decodesAs_encode (.shl x y) fun _ => rfl, fun s => ⟨_, exec_shl x y s,
    s.writeFlagged_flagAndResult x (toNat_shlResult _) (shlOut_iff _), s.writeFlagged_onlyChanges_v x _ _⟩⟩

/-- Settles O15: R142 is one write of `V[x]`, whatever the free byte is. -/
theorem randomIsFreeByteMasked : Obligations.RandomIsFreeByteMasked := by
  intro x nn
  exact ⟨decodesAs_encode (.rnd x nn) fun _ => rfl, fun s =>
    ⟨_, exec_rnd x nn s, s.readV_writeV_self x _, s.writeV_onlyChanges_v x _⟩⟩

/-! ## Timers and the wait-key (R163 to R165) -/

theorem exec_ldVxK (x : Reg) (s : State) :
    exec (.ldVxK x) s = .next { s.rewindPc with mode := .awaitingKey, waitDst := x } := rfl

theorem exec_ldDtVx (x : Reg) (s : State) : exec (.ldDtVx x) s = .next { s with dt := s.readV x } := rfl

theorem exec_ldStVx (x : Reg) (s : State) : exec (.ldStVx x) s = .next { s with st := s.readV x } := rfl

/-! ## Memory (R173 to R175) -/

theorem exec_ldB (x : Reg) (s : State) :
    exec (.ldB x) s = .next (s.writeBytes s.i.toNat (bcdDigits (s.readV x))) := rfl

theorem exec_ldMemStore (x : Reg) (s : State) :
    exec (.ldMemStore x) s = .next (s.writeBytes s.i.toNat (s.v.toList.take (x.toNat + 1))) := rfl

theorem exec_ldMemLoad (x : Reg) (s : State) : exec (.ldMemLoad x) s = .next (s.loadRegs (x.toNat + 1)) := rfl

/-- Settles O26: the three digits are a run of byte writes at I. -/
theorem bcdStoresThreeDigits : Obligations.BcdStoresThreeDigits := by
  intro x
  refine ⟨decodesAs_encode (.ldB x) fun _ => rfl, fun s =>
    ⟨_, exec_ldB x s, ?hundreds, ?tens, ?ones, s.writeBytes_onlyChanges_byte _ (bcdDigits (s.readV x))⟩⟩
  all_goals
    have hdigit (j : Nat) (hj : j < 3) :=
      congrArg BitVec.toNat (s.readByte_writeBytes_at s.i.toNat (bcdDigits (s.readV x)) (show 3 ≤ 4096 by decide) j hj)
    have hbyte := (s.readV x).isLt
  case hundreds => exact (hdigit 0 (by decide)).trans (Nat.mod_eq_of_lt (by omega))
  case tens => exact (hdigit 1 (by decide)).trans (Nat.mod_eq_of_lt (by omega))
  case ones => exact (hdigit 2 (by decide)).trans (Nat.mod_eq_of_lt (by omega))

theorem State.length_take_v (s : State) (x : Reg) : (s.v.toList.take (x.toNat + 1)).length = x.toNat + 1 := by
  have hx := x.isLt
  rw [List.length_take, Vector.length_toList]
  omega

/-- Settles O27: the registers are a run of byte writes at I. -/
theorem storeRegistersWritesConsecutiveBytes : Obligations.StoreRegistersWritesConsecutiveBytes := by
  intro x
  refine ⟨decodesAs_encode (.ldMemStore x) fun _ => rfl, fun s => ⟨_, exec_ldMemStore x s, fun r hr => ?_, ?_⟩⟩
  · have hlen := s.length_take_v x
    have hx := x.isLt
    rw [s.readByte_writeBytes_at _ _ (by omega) r.toNat (by omega)]
    simp [State.readV]
  · have hframe := s.writeBytes_onlyChanges_byte s.i.toNat (s.v.toList.take (x.toNat + 1))
    rwa [s.length_take_v x] at hframe

/-- Settles O28: each of V0 to Vx takes its byte, and nothing else is written. -/
theorem loadRegistersReadsConsecutiveBytes : Obligations.LoadRegistersReadsConsecutiveBytes := by
  intro x
  have hx := x.isLt
  refine ⟨decodesAs_encode (.ldMemLoad x) fun _ => rfl, fun s => ⟨_, exec_ldMemLoad x s, fun r hr => ?_, ?_⟩⟩
  · rw [s.readV_loadRegs _ (by omega), if_pos (by omega)]
  · exact (s.loadRegs_onlyChanges_v (by omega)).mono fun _ ⟨r, hr, hp⟩ => ⟨r, Nat.le_of_lt_succ hr, hp⟩

end Sys2Proof.Machine
end

section
/-! PROOFS. Drawing (43_display.md R151 to R153): which cells a draw turns over, when it collides, and what a second draw at
the same place does. -/

namespace Sys2Proof.Machine

theorem exec_drw (x y : Reg) (n : Nibble) (s : State) : exec (.drw x y n) s =
    .next ({ s with disp := (s.drawn x y n).1 }.writeV vf (flagByte (s.drawn x y n).2)) := rfl

/-! ## The drawn display and the collision bit -/

/-- The flat index of R152, written with the row inside the product or split off. -/
theorem spriteLights_iff (s : State) (x y : Reg) (n : Nibble) (k : Nat) :
    SpriteLights s x y n k ↔ RowsLight s.spriteRow (s.spriteOrigin x y) n.toNat k := by
  have index (r c : Nat) : (s.readV x).toNat + c + ((s.readV y).toNat + r) * 64 = s.spriteOrigin x y + r * 64 + c := by
    unfold State.spriteOrigin; omega
  constructor
  · rintro ⟨r, c, hr, hc, hk, hbit⟩
    exact ⟨r, hr, c, hc, hk.trans (index r c), hbit⟩
  · rintro ⟨r, hr, c, hc, hk, hbit⟩
    exact ⟨r, c, hr, hc, hk.trans (index r c).symm, hbit⟩

section
variable (s : State) (x y : Reg) (n : Nibble)

theorem State.cell_drawn_lit {k : Nat} (hk : k < 2048) (hlit : SpriteLights s x y n k) :
    Display.cell (s.drawn x y n).1 k = !Display.cell s.disp k :=
  (drawRows_spec s.spriteRow (s.spriteOrigin x y) (s.disp, false) n.toNat).1 k hk ((spriteLights_iff ..).1 hlit)

theorem State.cell_drawn_unlit {k : Nat} (hlit : ¬ (k < 2048 ∧ SpriteLights s x y n k)) :
    Display.cell (s.drawn x y n).1 k = Display.cell s.disp k := by
  rw [spriteLights_iff] at hlit
  exact (drawRows_spec s.spriteRow (s.spriteOrigin x y) (s.disp, false) n.toNat).2.1 k hlit

theorem State.drawn_collides_iff : (s.drawn x y n).2 = true ↔
    ∃ k, k < 2048 ∧ SpriteLights s x y n k ∧ Display.cell s.disp k = true := by
  simp only [spriteLights_iff]
  exact (drawRows_spec s.spriteRow (s.spriteOrigin x y) (s.disp, false) n.toNat).2.2.trans (by simp)

/-- Only a lit cell can go from on to off, and a lit cell that was on does. -/
theorem State.drawn_turnsOff_iff :
    (∃ k, k < 2048 ∧ Display.cell s.disp k = true ∧ Display.cell (s.drawn x y n).1 k = false) ↔
      (s.drawn x y n).2 = true := by
  rw [State.drawn_collides_iff]
  refine exists_congr fun k => and_congr_right fun hk => ?_
  by_cases hlit : SpriteLights s x y n k
  · simp [s.cell_drawn_lit x y n hk hlit, hlit]
  · simp [s.cell_drawn_unlit x y n fun h => hlit h.2, hlit]

end

/-- Settles O17: the drawn display and the collision bit of R151 to R153, and the frame of their two writes. -/
theorem drawXorsSpriteAndReportsCollision : Obligations.DrawXorsSpriteAndReportsCollision := by
  intro x y n
  refine ⟨decodesAs_encode (.drw x y n) fun _ => rfl, fun s => ⟨_, exec_drw x y n s, fun k hk hlit => ?lit,
    fun k _ hlit => ?unlit, fun hoff => ?collision, fun hoff => ?noCollision, s.drawn_onlyChanges _ _⟩⟩
  case lit => exact s.cell_drawn_lit x y n hk hlit
  case unlit => exact s.cell_drawn_unlit x y n fun h => hlit h.2
  case collision =>
    rw [State.readV_writeV_self]
    exact flagByte_of_true ((s.drawn_turnsOff_iff x y n).1 hoff)
  case noCollision =>
    rw [State.readV_writeV_self]
    exact flagByte_of_not_true (mt (s.drawn_turnsOff_iff x y n).2 hoff)

/-! ## Drawing twice -/

theorem flagByte_eq_one_iff (b : Bool) : flagByte b = 1#8 ↔ b = true := by
  cases b <;> decide

/-- VF after a draw tells whether a lit cell was on. -/
theorem readV_vf_of_exec_drw {x y : Reg} {n : Nibble} {s t : State} (h : exec (.drw x y n) s = .next t) :
    t.readV vf = 1#8 ↔ ∃ k, k < 2048 ∧ SpriteLights s x y n k ∧ Display.cell s.disp k = true := by
  cases h
  rw [State.readV_writeV_self, flagByte_eq_one_iff, State.drawn_collides_iff]

/-- A draw leaves the sprite where it was, so a second draw from the same coordinates lights the same cells. -/
theorem spriteLights_of_exec_drw {x y : Reg} {n : Nibble} {s t : State} (h : exec (.drw x y n) s = .next t)
    (hx : t.readV x = s.readV x) (hy : t.readV y = s.readV y) (k : Nat) :
    SpriteLights t x y n k ↔ SpriteLights s x y n k := by
  have hi : t.i = s.i := by cases h; rfl
  have hbyte (a : Nat) : t.readByte a = s.readByte a := by cases h; rfl
  simp only [SpriteLights, hx, hy, hi, hbyte]

/-- Settles O18: both draws light the same cells, so a lit cell turns over twice, and the cells the second draw finds on are
those the first found off. -/
theorem drawingTwiceRestoresDisplay : Obligations.DrawingTwiceRestoresDisplay := by
  intro x y n s t u ht hx hy hu
  have hsame := spriteLights_of_exec_drw ht hx hy
  have htdisp : t.disp = (s.drawn x y n).1 := by cases ht; rfl
  have hudisp : u.disp = (t.drawn x y n).1 := by cases hu; rfl
  refine ⟨Display.ext_cell fun k => ?restored, ?second, readV_vf_of_exec_drw ht⟩
  case restored =>
    rw [hudisp]
    by_cases hlit : k < 2048 ∧ SpriteLights s x y n k
    · rw [t.cell_drawn_lit x y n hlit.1 ((hsame k).2 hlit.2), htdisp, s.cell_drawn_lit x y n hlit.1 hlit.2, Bool.not_not]
    · rw [t.cell_drawn_unlit x y n (by rwa [hsame k]), htdisp, s.cell_drawn_unlit x y n hlit]
  case second =>
    rw [readV_vf_of_exec_drw hu]
    refine exists_congr fun k => and_congr_right fun hk => ?_
    rw [hsame k]
    refine and_congr_right fun hlit => ?_
    rw [htdisp, s.cell_drawn_lit x y n hk hlit, Bool.not_eq_true']

end Sys2Proof.Machine
end

section
/-! PROOFS. Rules over all instructions: the access matrix (10_state.md R35), and the two parts that most instructions do not
read (R26, R30). -/

namespace Sys2Proof.Machine

/-! ## The access matrix -/

/-- One frame per shape of instruction: a write of PC, of a register, of flag and result, of a run of bytes, and so on. -/
theorem exec_onlyChanges_mayWrite {i : Instr} {s t : State} (h : exec i s = .next t) : OnlyChanges (mayWrite i) s t := by
  cases i with
  | jp | jpV0 => cases h; exact (State.jumpTo_onlyChanges_pc _ _).mono (by rintro _ rfl; rfl)
  | seImm | sneImm | seReg | sneReg | skp | sknp =>
    cases h; exact (State.skipIf_onlyChanges_pc _ _).mono (by rintro _ rfl; rfl)
  | ldImm | addImm | ldReg | orReg | andReg | xorReg | rnd | ldVxDt =>
    cases h; exact (State.writeV_onlyChanges_v _ _ _).mono (by rintro _ rfl; exact .inl rfl)
  | addReg | sub | shr | subn | shl =>
    cases h
    refine (State.writeFlagged_onlyChanges_v _ _ _ _).mono ?_
    rintro _ (rfl | rfl)
    · exact .inl rfl
    · exact .inr (.inl ⟨rfl, rfl⟩)
  | ldI a => cases h; exact (State.setI_onlyChanges_i _ _).mono (by rintro _ rfl; exact .inl ⟨a, rfl⟩)
  | addI x => cases h; exact (State.setI_onlyChanges_i _ _).mono (by rintro _ rfl; exact .inr (.inl ⟨x, rfl⟩))
  | ldF x => cases h; exact (State.setI_onlyChanges_i _ _).mono (by rintro _ rfl; exact .inr (.inr ⟨x, rfl⟩))
  | ldDtVx x => cases h; exact (State.setDt_onlyChanges_dt _ _).mono (by rintro _ rfl; exact ⟨x, rfl⟩)
  | ldStVx x => cases h; exact (State.setSt_onlyChanges_st _ _).mono (by rintro _ rfl; exact ⟨x, rfl⟩)
  | ldB x => cases h; exact (State.writeBytes_onlyChanges_byte _ _ _).mono (by rintro _ ⟨a, rfl, -⟩; exact .inl ⟨x, rfl⟩)
  | ldMemStore x =>
    cases h; exact (State.writeBytes_onlyChanges_byte _ _ _).mono (by rintro _ ⟨a, rfl, -⟩; exact .inr ⟨x, rfl⟩)
  | ldMemLoad x =>
    cases h
    refine (State.loadRegs_onlyChanges_v _ x.isLt).mono ?_
    rintro _ ⟨r, hr, rfl⟩
    exact .inr (.inr ⟨x, rfl, Nat.le_of_lt_succ hr⟩)
  | cls => cases h; exact (State.setDisp_onlyChanges_cell _ _).mono (by rintro _ ⟨k, rfl⟩; exact .inl rfl)
  | drw x y n =>
    cases h
    refine (State.drawn_onlyChanges _ _ _).mono ?_
    rintro _ (rfl | ⟨k, rfl⟩)
    · exact .inr (.inl ⟨rfl, rfl⟩)
    · exact .inr ⟨x, y, n, rfl⟩
  | ldVxK x =>
    cases h
    refine (State.await_onlyChanges _ x).mono ?_
    rintro _ (rfl | rfl | rfl)
    · exact .inl ⟨x, rfl⟩
    · exact ⟨x, rfl⟩
    · rfl
  | ret =>
    cases hs : s.stack with
    | nil =>
      cases (exec_ret_empty hs).symm.trans h
      exact (s.takeFault_onlyChanges_mode _).mono (by rintro _ rfl; exact .inr (.inl rfl))
    | cons a rest =>
      cases (exec_ret_nonempty hs).symm.trans h
      refine (s.setPcStack_onlyChanges a rest).mono ?_
      rintro _ (rfl | rfl)
      · rfl
      · exact .inl rfl
  | call a =>
    by_cases hs : s.cfg.stackDepth = some s.stack.length
    · cases (exec_call_full a hs).symm.trans h
      exact (s.takeFault_onlyChanges_mode _).mono (by rintro _ rfl; exact .inr (.inr ⟨a, rfl⟩))
    · cases (exec_call_notFull a hs).symm.trans h
      refine (s.setPcStack_onlyChanges _ _).mono ?_
      rintro _ (rfl | rfl)
      · rfl
      · exact .inr ⟨a, rfl⟩

/-- Settles O45, by the frame of each instruction. -/
theorem instructionsWriteOnlyTheirParts : Obligations.InstructionsWriteOnlyTheirParts :=
  fun _ _ _ h => exec_onlyChanges_mayWrite h

/-! ## What no instruction, or only the key tests, read -/

/-- A change of ST by `g` and of KBD by `h`. -/
def State.mapStKbd (g : Byte → Byte) (h : Word → Word) (s : State) : State := { s with st := g s.st, kbd := h s.kbd }

section
variable (g : Byte → Byte) (h : Word → Word) (s : State)

theorem State.writeBytes_mapStKbd (a : Nat) (bs : List Byte) :
    (s.mapStKbd g h).writeBytes a bs = (s.writeBytes a bs).mapStKbd g h := by
  induction bs generalizing s a with
  | nil => rfl
  | cons b bs ih => exact ih (s.writeByte a b) (a + 1)

theorem State.loadRegs_mapStKbd (n : Nat) : (s.mapStKbd g h).loadRegs n = (s.loadRegs n).mapStKbd g h := by
  induction n with
  | zero => rfl
  | succ n ih => rw [State.loadRegs, ih]; rfl

theorem State.skipIf_mapStKbd (c : Bool) : (s.mapStKbd g h).skipIf c = (s.skipIf c).mapStKbd g h := by
  cases c <;> rfl

theorem State.writeFlagged_mapStKbd (x : Reg) (result : Byte) (flag : Bool) :
    (s.mapStKbd g h).writeFlagged x result flag = (s.writeFlagged x result flag).mapStKbd g h := by
  cases hc : s.cfg.vfDestOrder <;> simp only [State.writeFlagged, State.mapStKbd, hc] <;> rfl

end

/-- Every instruction that may not read a changed part runs alike on the changed state: only LD_ST_Vx writes ST and none
reads it, only the key tests read KBD and none writes it. -/
theorem exec_mapStKbd {g : Byte → Byte} {h : Word → Word} {i : Instr} (hst : g = id ∨ ∀ x, i ≠ .ldStVx x)
    (hkbd : h = id ∨ ∀ x, i ≠ .skp x ∧ i ≠ .sknp x) (s : State) :
    exec i (s.mapStKbd g h) = mapNext (State.mapStKbd g h) (exec i s) := by
  cases i with
  | cls | jp | ldImm | addImm | ldReg | orReg | andReg | xorReg | ldI | jpV0 | rnd | drw | ldVxDt | ldVxK | ldDtVx | addI
  | ldF => rfl
  | seImm | sneImm | seReg | sneReg => exact congrArg _ (State.skipIf_mapStKbd g h s _)
  | addReg | sub | shr | subn | shl => exact congrArg _ (State.writeFlagged_mapStKbd g h s _ _ _)
  | ldB | ldMemStore => exact congrArg _ (State.writeBytes_mapStKbd g h s _ _)
  | ldMemLoad x => exact congrArg _ (State.loadRegs_mapStKbd g h s _)
  | skp x =>
    obtain rfl := hkbd.resolve_right fun hne => (hne x).1 rfl
    exact congrArg _ (State.skipIf_mapStKbd g id s _)
  | sknp x =>
    obtain rfl := hkbd.resolve_right fun hne => (hne x).2 rfl
    exact congrArg _ (State.skipIf_mapStKbd g id s _)
  | ldStVx x =>
    obtain rfl := hst.resolve_right fun hne => hne x rfl
    rfl
  | ret =>
    cases hs : s.stack with
    | nil =>
      rw [exec_ret_empty hs, exec_ret_empty (s := s.mapStKbd g h) hs]
      rfl
    | cons a rest =>
      rw [exec_ret_nonempty hs, exec_ret_nonempty (s := s.mapStKbd g h) hs]
      rfl
  | call a =>
    by_cases hs : s.cfg.stackDepth = some s.stack.length
    · rw [exec_call_full a hs, exec_call_full a (s := s.mapStKbd g h) hs]
      rfl
    · rw [exec_call_notFull a hs, exec_call_notFull a (s := s.mapStKbd g h) hs]
      rfl

/-- Settles O46: LD_ST_Vx puts Vx over whatever ST was, and every other instruction carries the new ST along. -/
theorem soundTimerIsNeverRead : Obligations.SoundTimerIsNeverRead := by
  intro i s b
  by_cases hi : ∃ x, i = .ldStVx x
  · obtain ⟨x, rfl⟩ := hi
    exact ⟨s.readV x, rfl⟩
  · exact ⟨b, exec_mapStKbd (g := fun _ => b) (h := id) (.inr fun x hx => hi ⟨x, hx⟩) (.inl rfl) s⟩

/-- Settles O47: an instruction other than the key tests carries the new KBD along. -/
theorem onlyKeyTestsReadKeyMask : Obligations.OnlyKeyTestsReadKeyMask := fun _ s m hskp hsknp =>
  exec_mapStKbd (g := id) (h := fun _ => m) (.inl rfl) (.inr fun x => ⟨hskp x, hsknp x⟩) s

end Sys2Proof.Machine
end

section
/-! PROOFS. Memory and fetch (20_memory.md, 40_dispatch.md R103): addresses are reduced modulo 4096, so a write, a read and a
fetch see the reduced address only. -/

namespace Sys2Proof.Machine

theorem State.readByte_congr_addr (s : State) {a b : Nat} (h : reduceAddr a = reduceAddr b) :
    s.readByte a = s.readByte b := by
  unfold State.readByte; rw [h]

theorem State.writeByte_congr_addr (s : State) {a b : Nat} (h : reduceAddr a = reduceAddr b) (byte : Byte) :
    s.writeByte a byte = s.writeByte b byte := by
  unfold State.writeByte; rw [h]

theorem reduceAddr_mod (a : Nat) : reduceAddr (a % 4096) = reduceAddr a := Nat.mod_mod a 4096

/-- A single write is a run of one. -/
theorem State.writeByte_onlyChanges_byte (s : State) (a : Nat) (b : Byte) :
    OnlyChanges (fun p => ∃ c, p = .byte c ∧ c % 4096 = a % 4096) s (s.writeByte a b) := by
  refine (s.writeBytes_onlyChanges_byte a [b]).mono ?_
  rintro _ ⟨c, rfl, j, hj, hc⟩
  obtain rfl : j = 0 := Nat.lt_one_iff.1 hj
  exact ⟨c, rfl, hc⟩

/-- Settles O29: reads and writes go through `reduceAddr` alone. -/
theorem memoryAddressesReduceModulo4096 : Obligations.MemoryAddressesReduceModulo4096 := fun s a =>
  ⟨s.readByte_congr_addr (reduceAddr_mod a).symm, fun b =>
    ⟨(s.readByte_writeByte a b a).trans (if_pos rfl), s.writeByte_congr_addr (reduceAddr_mod a).symm b,
      s.writeByte_onlyChanges_byte a b⟩⟩

theorem toNat_wordOfBytes (hi lo : Byte) : (wordOfBytes hi lo).toNat = hi.toNat * 256 + lo.toNat := by
  rw [wordOfBytes, BitVec.toNat_append, ← Nat.shiftLeft_add_eq_or_of_lt lo.isLt, Nat.shiftLeft_eq]

/-- Settles O30: the word of the two bytes, each read at its reduced address. -/
theorem fetchReadsBigEndianAtPc : Obligations.FetchReadsBigEndianAtPc := by
  intro s
  rw [State.fetchWord, toNat_wordOfBytes, s.readByte_congr_addr (reduceAddr_mod s.pc.toNat),
    s.readByte_congr_addr (reduceAddr_mod (s.pc.toNat + 1))]

/-- Settles O31: the bytes at PC and PC + 1 are apart, so each reads back; and 65536 is a multiple of 4096, so a PC moved by
4096 k reduces as before, whether or not it wraps. -/
theorem fetchSeesStoredBytes : Obligations.FetchSeesStoredBytes := by
  intro s hi lo
  constructor
  · have hapart : reduceAddr s.pc.toNat ≠ reduceAddr (s.pc.toNat + 1) := by simp only [reduceAddr, memSize]; omega
    rw [State.fetchWord, toNat_wordOfBytes]
    simp [State.readByte_writeByte, hapart]
  · intro k
    have hpc : (s.pc + BitVec.ofNat 16 (4096 * k)).toNat % 4096 = s.pc.toNat % 4096 := by
      rw [BitVec.toNat_add, BitVec.toNat_ofNat]; omega
    have hlow : reduceAddr (s.pc + BitVec.ofNat 16 (4096 * k)).toNat = reduceAddr s.pc.toNat := hpc
    have hhigh : reduceAddr ((s.pc + BitVec.ofNat 16 (4096 * k)).toNat + 1) = reduceAddr (s.pc.toNat + 1) := by
      simp only [reduceAddr, memSize]; omega
    exact congrArg₂ wordOfBytes (s.readByte_congr_addr hlow) (s.readByte_congr_addr hhigh)

end Sys2Proof.Machine
end

section
/-! PROOFS. The step (40_dispatch.md, 60_exceptions.md): what exec may do to MODE, what a step commits, and the whole steps of
single instructions. -/

namespace Sys2Proof.Machine

/-! ## What a step commits -/

theorem State.notFaulted_of_running {s : State} (h : s.mode = .running) : s.NotFaulted := by
  intro f hf; rw [h] at hf; cases hf

theorem State.notFaulted_of_awaitingKey {s : State} (h : s.mode = .awaitingKey) : s.NotFaulted := by
  intro f hf; rw [h] at hf; cases hf

/-- A step whose instruction raises no fault commits the working copy whole (R106). -/
theorem step_commits {s t : State} {i : Instr} (hm : s.mode = .running) (hd : s.decodeNext = .instr i)
    (he : exec i s.beginStep = .next t) (ht : t.NotFaulted) : step s = .next { t with draws := s.draws + 1 } := by
  rw [step_instr hm hd he, State.commit_of_notFaulted ht]

/-- What an instruction does to MODE (R31): nothing, unless it is a wait-key or a return or call that raises its fault. -/
theorem exec_mode_cases {i : Instr} {s t : State} (h : exec i s = .next t) :
    t.mode = s.mode ∨
    (∃ x, i = .ldVxK x ∧ t = { s.rewindPc with mode := .awaitingKey, waitDst := x }) ∨
    (i = .ret ∧ s.stack = [] ∧ t = s.takeFault (.precondition .stackUnderflow)) ∨
    (∃ a, i = .call a ∧ s.cfg.stackDepth = some s.stack.length ∧ t = s.takeFault .stackOverflow) := by
  by_cases hmode : mayWrite i .mode
  case neg => exact .inl (exec_onlyChanges_mayWrite h .mode hmode)
  case pos =>
    rcases hmode with ⟨x, rfl⟩ | rfl | ⟨a, rfl⟩
    · cases h; exact .inr (.inl ⟨x, rfl, rfl⟩)
    · cases hs : s.stack with
      | nil => cases (exec_ret_empty hs).symm.trans h; exact .inr (.inr (.inl ⟨rfl, rfl, rfl⟩))
      | cons a rest => cases (exec_ret_nonempty hs).symm.trans h; exact .inl rfl
    · by_cases hs : s.cfg.stackDepth = some s.stack.length
      · cases (exec_call_full a hs).symm.trans h; exact .inr (.inr (.inr ⟨a, rfl, hs, rfl⟩))
      · cases (exec_call_notFull a hs).symm.trans h; exact .inl rfl

/-- What a step in `Running` commits of its working copy `t`, by what the instruction did to MODE. -/
theorem commit_cases {i : Instr} {s t : State} (hm : s.mode = .running) (h : exec i s.beginStep = .next t) :
    (t.mode = .running ∧ s.commit t = { t with draws := s.draws + 1 }) ∨
    (∃ x, i = .ldVxK x ∧ t = { s.beginStep.rewindPc with mode := .awaitingKey, waitDst := x } ∧
      s.commit t = { t with draws := s.draws + 1 }) ∨
    (i = .ret ∧ s.stack = [] ∧ s.commit t = s.takeFault (.precondition .stackUnderflow)) ∨
    (∃ a, i = .call a ∧ s.cfg.stackDepth = some s.stack.length ∧ s.commit t = s.takeFault .stackOverflow) := by
  rcases exec_mode_cases h with hmode | ⟨x, rfl, ht⟩ | ⟨rfl, hs, ht⟩ | ⟨a, rfl, hs, ht⟩
  · have hrun : t.mode = .running := hmode.trans hm
    exact .inl ⟨hrun, State.commit_of_notFaulted (State.notFaulted_of_running hrun)⟩
  · exact .inr (.inl ⟨x, rfl, ht, State.commit_of_notFaulted (State.notFaulted_of_awaitingKey (by rw [ht]))⟩)
  · exact .inr (.inr (.inl ⟨rfl, hs, State.commit_of_faulted (by rw [ht]; rfl)⟩))
  · exact .inr (.inr (.inr ⟨a, rfl, hs, State.commit_of_faulted (by rw [ht]; rfl)⟩))

/-- Settles O32: the step is the commit of the decoded instruction, or the refusal of the word. -/
theorem stepRunsDecodedInstruction : Obligations.StepRunsDecodedInstruction := by
  intro s hm
  refine ⟨fun i hd => ⟨rfl, fun t he => ⟨step_commits hm hd he, fun f hf => ?faults⟩⟩, fun w hd => step_unsupported hm hd⟩
  case faults =>
    rw [step_instr hm hd he, State.commit_of_faulted hf]
    rfl

/-- Settles O34: the decoder hands back the fetched word, and the step takes the fault with it. -/
theorem unsupportedWordFaultsAndCommitsNothing : Obligations.UnsupportedWordFaultsAndCommitsNothing := by
  intro s w hm hd
  obtain rfl : w = s.fetchWord := decode_unsupported_word hd
  exact ⟨rfl, step_unsupported hm hd⟩

theorem deliverKey_faulted {s : State} {f : CoreFault} (h : s.mode = .faulted f) (k : Nat) :
    deliverKey k s = .fault (.stopped f) := by
  simp [deliverKey, h]

/-- Settles O35, by the mode the step starts in. -/
theorem stepOutsideRunningDoesNotRun : Obligations.StepOutsideRunningDoesNotRun :=
  ⟨fun _ => step_awaiting, fun _ _ h => ⟨step_faulted h, deliverKey_faulted h⟩⟩

/-- Settles O36: the ways a step answers (`step_cases`), with the commit of an instruction split by `commit_cases`. -/
theorem stepHasExactlyTheListedOutcomes : Obligations.StepHasExactlyTheListedOutcomes := by
  intro s
  rcases step_cases s with hfaulted | hawaiting | hunsupported | ⟨i, t, hm, hd, he, hstep⟩
  · exact .inr (.inr (.inr (.inr (.inr hfaulted))))
  · exact .inr (.inr (.inl hawaiting))
  · exact .inr (.inl hunsupported)
  rcases commit_cases hm he with ⟨hrun, hc⟩ | ⟨x, -, ht, hc⟩ | ⟨rfl, hs, hc⟩ | ⟨a, rfl, hs, hc⟩
  all_goals rw [hc] at hstep
  · exact .inl ⟨_, i, hstep, hm, hd, .inl hrun⟩
  · exact .inl ⟨_, i, hstep, hm, hd, .inr (by rw [ht])⟩
  · exact .inr (.inr (.inr (.inl ⟨hm, hd, hs, hstep⟩)))
  · exact .inr (.inr (.inr (.inr (.inl ⟨hm, ⟨a, hd⟩, hs, hstep⟩))))

/-! ## The tick (R102) and the timer instructions -/

theorem State.applyTick_st_core {s : State} (h : s.cfg.soundTickMode = .core) (tick : Bool) :
    (s.applyTick tick).st = tickTimer tick s.st := by
  simp [State.applyTick, h]

theorem State.applyTick_st_external {s : State} (h : s.cfg.soundTickMode = .external) (tick : Bool) :
    (s.applyTick tick).st = s.st := by
  simp [State.applyTick, h]

theorem State.applyTick_onlyChanges (s : State) (tick : Bool) :
    OnlyChanges (fun p => p = .dt ∨ p = .st) s (s.applyTick tick) := by
  intro p hp
  cases p with
  | dt => exact absurd (.inl rfl) hp
  | st => exact absurd (.inr rfl) hp
  | v | pc | i | stack | byte | cell | kbd | mode | waitDst | cfg | draws => rfl

/-- Settles O33: both timers follow `tickTimer`, ST only under `core`. -/
theorem tickCountsTimersDown : Obligations.TickCountsTimersDown := fun s =>
  ⟨fun tick => ⟨toNat_tickTimer tick s.dt,
    fun hcore => (congrArg BitVec.toNat (State.applyTick_st_core hcore tick)).trans (toNat_tickTimer tick s.st),
    fun hext => State.applyTick_st_external hext tick, s.applyTick_onlyChanges tick⟩, rfl, rfl⟩

/-- Settles O20: the register takes DT of the working copy, which in a step has ticked. -/
theorem readDelayCopiesTickedTimer : Obligations.ReadDelayCopiesTickedTimer := by
  intro x
  refine ⟨decodesAs_encode (.ldVxDt x) fun _ => rfl, fun s =>
    ⟨_, exec_ldVxDt x s, s.readV_writeV_self x s.dt, s.writeV_onlyChanges_v x s.dt⟩, fun s hm hd => ?step⟩
  case step =>
    refine ⟨_, step_commits hm hd (exec_ldVxDt x s.beginStep) (State.notFaulted_of_running hm), ?_⟩
    exact (congrArg BitVec.toNat (s.beginStep.readV_writeV_self x s.beginStep.dt)).trans (toNat_tickTimer _ s.dt)

/-- Settles O21: in the whole step the rewind undoes the base advance, wrap included, and the tick stays. -/
theorem waitKeySuspendsAtItself : Obligations.WaitKeySuspendsAtItself := by
  intro x
  refine ⟨decodesAs_encode (.ldVxK x) fun _ => rfl, fun s =>
    ⟨_, exec_ldVxK x s, rfl, rfl, rfl, s.await_onlyChanges x⟩, fun s hm hd => ?step⟩
  case step =>
    have hpc : s.pc + 2#16 - 2#16 = s.pc := BitVec.add_sub_cancel ..
    refine ⟨_, step_commits hm hd (exec_ldVxK x s.beginStep) (State.notFaulted_of_awaitingKey rfl), rfl, rfl, hpc,
      toNat_tickTimer _ s.dt, fun p hp => ?_⟩
    cases p with
    | mode => exact absurd (.inl rfl) hp
    | waitDst => exact absurd (.inr (.inl rfl)) hp
    | dt => exact absurd (.inr (.inr (.inl rfl))) hp
    | st => exact absurd (.inr (.inr (.inr (.inl rfl)))) hp
    | draws => exact absurd (.inr (.inr (.inr (.inr rfl)))) hp
    | pc => exact hpc
    | v | i | stack | byte | cell | kbd | cfg => rfl

/-- Settles O22: the write comes after the tick, and a step commits it as it is. -/
theorem timerWritesTakeRegister : Obligations.TimerWritesTakeRegister := by
  intro x
  refine ⟨decodesAs_encode (.ldDtVx x) fun _ => rfl, decodesAs_encode (.ldStVx x) fun _ => rfl, fun s =>
    ⟨⟨_, exec_ldDtVx x s, rfl, s.setDt_onlyChanges_dt _⟩, ⟨_, exec_ldStVx x s, rfl, rfl, s.setSt_onlyChanges_st _⟩⟩,
    fun s hm hd => ?stepDt, fun s hm hd => ?stepSt⟩
  case stepDt => exact ⟨_, step_commits hm hd (exec_ldDtVx x s.beginStep) (State.notFaulted_of_running hm), rfl⟩
  case stepSt => exact ⟨_, step_commits hm hd (exec_ldStVx x s.beginStep) (State.notFaulted_of_running hm), rfl⟩

/-! ## Skips (R108) -/

/-- The whole step of an instruction that skips on `c`: the base advance, and the skip on top of it. -/
theorem step_skip {s : State} {i : Instr} {c : Bool} (hm : s.mode = .running) (hd : s.decodeNext = .instr i)
    (he : exec i s.beginStep = .next (s.beginStep.skipIf c)) :
    ∃ t, step s = .next t ∧ t.pc = s.pc + if c then 4#16 else 2#16 := by
  refine ⟨_, step_commits hm hd he (State.notFaulted_of_running ((s.beginStep.skipIf_mode c).trans hm)), ?_⟩
  cases c with
  | false => rfl
  | true => exact BitVec.add_assoc s.pc 2#16 2#16

/-- Settles O37: each of the six skips is a `skipIf` on its condition, which the tick and the base advance do not touch. -/
theorem stepOfSkipMovesPcByTwoOrFour : Obligations.StepOfSkipMovesPcByTwoOrFour := by
  intro s x y nn n hm
  refine ⟨fun hd => ?seImm, fun hd => ?sneImm, fun hd => ?seReg, fun hd => ?sneReg, fun hd => ?skp, fun hd => ?sknp⟩
  case seImm => simpa using step_skip (c := s.readV x == nn) hm hd rfl
  case sneImm => simpa using step_skip (c := s.readV x != nn) hm hd rfl
  case seReg => simpa using step_skip (c := s.readV x == s.readV y) hm hd rfl
  case sneReg => simpa using step_skip (c := s.readV x != s.readV y) hm hd rfl
  case skp => exact step_skip (c := s.keyOperand x) hm hd rfl
  case sknp =>
    obtain ⟨t, ht, hpc⟩ := step_skip (c := !s.keyOperand x) hm hd rfl
    refine ⟨t, ht, hpc.trans ?_⟩
    change _ = s.pc + if s.keyOperand x then 2#16 else 4#16
    cases s.keyOperand x <;> rfl

/-! ## Call and return (S8) -/

theorem step_call {s : State} {nnn : Addr12} (hm : s.mode = .running) (hd : s.decodeNext = .instr (.call nnn))
    (hs : s.cfg.stackDepth ≠ some s.stack.length) : step s =
      .next { { s.beginStep with stack := (s.pc + 2#16) :: s.stack }.jumpTo (zext16OfAddr nnn) with
        draws := s.draws + 1 } :=
  step_commits hm hd (exec_call_notFull nnn (s := s.beginStep) hs) (State.notFaulted_of_running hm)

theorem step_ret {s : State} {a : Word} {rest : List Word} (hm : s.mode = .running)
    (hd : s.decodeNext = .instr .ret) (hs : s.stack = a :: rest) : step s =
      .next { { s.beginStep with stack := rest }.jumpTo a with draws := s.draws + 1 } :=
  step_commits hm hd (exec_ret_nonempty (s := s.beginStep) hs) (State.notFaulted_of_running hm)

/-- Settles O38: the return pops the entry the call has pushed, the advanced PC. -/
theorem callThenReturnResumesAfterCall : Obligations.CallThenReturnResumesAfterCall := by
  intro s t u nnn hm hd hs ht hdt hu
  cases (step_call hm hd hs).symm.trans ht
  cases (step_ret (by exact hm) hdt rfl).symm.trans hu
  refine ⟨toNat_zext16OfAddr nnn, rfl, rfl, hm, fun p hp => ?_⟩
  cases p with
  | pc => exact absurd (.inl rfl) hp
  | dt => exact absurd (.inr (.inl rfl)) hp
  | st => exact absurd (.inr (.inr (.inl rfl))) hp
  | draws => exact absurd (.inr (.inr (.inr rfl))) hp
  | v | i | stack | byte | cell | kbd | mode | waitDst | cfg => rfl

end Sys2Proof.Machine
end

section
/-! PROOFS. The host operations (60_exceptions.md, 70_reset_and_hazards.md): what each can do, the state after a load and
after reset, and how MODE moves. -/

namespace Sys2Proof.Machine

/-! ## What each operation can do -/

theorem programFits_iff (p : List Byte) : programFits p = true ↔ p.length ≤ 3584 := decide_eq_true_iff

theorem load_fits {p : List Byte} (h : p.length ≤ 3584) (s : State) :
    load p s = .next (State.loaded s.cfg s.draws p) :=
  if_pos ((programFits_iff p).2 h)

theorem load_tooLarge {p : List Byte} (h : 3584 < p.length) (s : State) :
    load p s = .next (s.takeFault (.loadTooLarge p.length)) :=
  if_neg (mt (programFits_iff p).1 (Nat.not_le.2 h))

theorem load_cases {p : List Byte} {s t : State} (h : load p s = .next t) :
    (p.length ≤ 3584 ∧ t = State.loaded s.cfg s.draws p) ∨
    (3584 < p.length ∧ t = s.takeFault (.loadTooLarge p.length)) := by
  rcases Nat.lt_or_ge 3584 p.length with hp | hp
  · cases (load_tooLarge hp s).symm.trans h; exact .inr ⟨hp, rfl⟩
  · cases (load_fits hp s).symm.trans h; exact .inl ⟨hp, rfl⟩

theorem deliverKey_running {s : State} (h : s.mode = .running) (k : Nat) :
    deliverKey k s = .next (s.takeFault (.precondition (.deliverWhileRunning k))) := by
  simp [deliverKey, h]

theorem deliverKey_awaiting_inRange {s : State} (h : s.mode = .awaitingKey) {k : Nat} (hk : k ≤ 15) :
    deliverKey k s = .next (s.resume k) := by
  simp [deliverKey, h, hk]

theorem deliverKey_awaiting_outOfRange {s : State} (h : s.mode = .awaitingKey) {k : Nat} (hk : 15 < k) :
    deliverKey k s = .next (s.takeFault (.precondition (.keyOutOfRange k))) := by
  simp [deliverKey, h, hk]

theorem deliverKey_cases {k : Nat} {s t : State} (h : deliverKey k s = .next t) :
    (s.mode = .running ∧ t = s.takeFault (.precondition (.deliverWhileRunning k))) ∨
    (s.mode = .awaitingKey ∧ k ≤ 15 ∧ t = s.resume k) ∨
    (s.mode = .awaitingKey ∧ 15 < k ∧ t = s.takeFault (.precondition (.keyOutOfRange k))) := by
  cases hm : s.mode with
  | running => cases (deliverKey_running hm k).symm.trans h; exact .inl ⟨rfl, rfl⟩
  | awaitingKey =>
    rcases Nat.lt_or_ge 15 k with hk | hk
    · cases (deliverKey_awaiting_outOfRange hm hk).symm.trans h; exact .inr (.inr ⟨rfl, hk, rfl⟩)
    · cases (deliverKey_awaiting_inRange hm hk).symm.trans h; exact .inr (.inl ⟨rfl, hk, rfl⟩)
  | faulted f => cases (deliverKey_faulted hm k).symm.trans h

theorem soundTick_core {s : State} (h : s.cfg.soundTickMode = .core) : soundTick s = .refused .noSoundTick := by
  simp [soundTick, h]

theorem soundTick_external {s : State} (h : s.cfg.soundTickMode = .external) :
    soundTick s = .next { s with st := tickTimer true s.st } := by
  simp [soundTick, h]

theorem soundTick_next {s t : State} (h : soundTick s = .next t) : t = { s with st := tickTimer true s.st } := by
  cases hm : s.cfg.soundTickMode with
  | core => cases (soundTick_core hm).symm.trans h
  | external => cases (soundTick_external hm).symm.trans h; rfl

/-- Settles O42, by `SOUND_TICK_MODE`. -/
theorem soundTickCountsSoundTimerDown : Obligations.SoundTickCountsSoundTimerDown := fun s =>
  ⟨fun hext => ⟨_, soundTick_external hext, toNat_tickTimer true s.st, s.setSt_onlyChanges_st _⟩, soundTick_core⟩

/-! ## Delivering a key (R166) -/

theorem State.resume_onlyChanges (s : State) (k : Nat) :
    OnlyChanges (fun p => p = .v s.waitDst ∨ p = .pc ∨ p = .mode) s (s.resume k) := by
  intro p hp
  cases p with
  | v r => exact s.readV_writeV_of_ne _ fun hr => hp (.inl (hr ▸ rfl))
  | pc => exact absurd (.inr (.inl rfl)) hp
  | mode => exact absurd (.inr (.inr rfl)) hp
  | i | dt | st | stack | byte | cell | kbd | waitDst | cfg | draws => rfl

theorem State.toNat_readV_resume (s : State) {k : Nat} (hk : k ≤ 15) : ((s.resume k).readV s.waitDst).toNat = k :=
  (congrArg BitVec.toNat (s.readV_writeV_self s.waitDst (BitVec.ofNat 8 k))).trans
    ((BitVec.toNat_ofNat ..).trans (Nat.mod_eq_of_lt (by omega)))

/-- Settles O39, by the mode and the range of the key. -/
theorem deliverKeyCompletesWait : Obligations.DeliverKeyCompletesWait := fun s k =>
  ⟨fun hm hk => ⟨_, deliverKey_awaiting_inRange hm hk, s.toNat_readV_resume hk, rfl, rfl, s.resume_onlyChanges k⟩,
    fun hm hk => deliverKey_awaiting_outOfRange hm hk, fun hm => deliverKey_running hm k⟩

/-! ## Load and reset (R200, R38) -/

theorem reduceAddr_of_lt {a : Nat} (h : a < 4096) : reduceAddr a = a := Nat.mod_eq_of_lt h

theorem State.readV_fresh (cfg : Config) (draws : Nat) (r : Reg) : (State.fresh cfg draws).readV r = 0#8 := by
  simp [State.readV, State.fresh]

theorem State.readByte_fresh (cfg : Config) (draws : Nat) {a : Nat} (h : a < 4096) :
    (State.fresh cfg draws).readByte a = resetByte cfg.font a := by
  rw [State.readByte, reduceAddr_of_lt h]; rfl

theorem resetByte_of_lt (font : Vector Byte 80) {a : Nat} (h : a < 80) : resetByte font a = font.toList.getD a 0#8 := by
  simp [resetByte, h]

theorem resetByte_of_ge (font : Vector Byte 80) {a : Nat} (h : 80 ≤ a) : resetByte font a = 0#8 :=
  dif_neg (Nat.not_lt.2 h)

section
variable (cfg : Config) (draws : Nat) {program : List Byte} (hlen : program.length ≤ 3584)
include hlen

theorem State.readByte_loaded_program {j : Nat} (hj : j < program.length) :
    (State.loaded cfg draws program).readByte (512 + j) = program.getD j 0#8 := by
  rw [List.getD_eq_getElem _ _ hj]
  exact State.readByte_writeBytes_at _ programBase program (by omega) j hj

/-- Below and above the program, memory holds the reset contents: the program does not wrap round the end of memory. -/
theorem State.readByte_loaded_outside {a : Nat} (ha : a < 4096) (hout : a < 512 ∨ 512 + program.length ≤ a) :
    (State.loaded cfg draws program).readByte a = resetByte cfg.font a := by
  have hnot : ¬ InBytes programBase program.length a := by
    rintro ⟨j, hj, heq⟩
    simp only [reduceAddr, memSize, programBase] at heq
    omega
  exact (State.readByte_writeBytes_of_not_in _ programBase program a hnot).trans (State.readByte_fresh cfg draws ha)

end

/-- Settles O40: a program that fits is written over the fresh state, and one that does not is a fault. -/
theorem loadInstallsFontAndProgram : Obligations.LoadInstallsFontAndProgram := by
  intro s program
  refine ⟨fun hlen => ⟨_, load_fits hlen s, fun a ha => ?font, fun a h80 h512 => ?gap, fun j hj => ?program,
    fun a hge hlt => ?rest, fun r => ?registers, ?fields⟩, fun hlen => load_tooLarge hlen s⟩
  case font =>
    rw [State.readByte_loaded_outside _ _ hlen (by omega) (.inl (by omega)), resetByte_of_lt _ ha]
  case gap =>
    rw [State.readByte_loaded_outside _ _ hlen (by omega) (.inl h512), resetByte_of_ge _ h80]
  case program => exact State.readByte_loaded_program _ _ hlen hj
  case rest =>
    rw [State.readByte_loaded_outside _ _ hlen hlt (.inr hge), resetByte_of_ge _ (by omega)]
  case registers =>
    exact (State.readV_congr (State.writeBytes_v ..) r).trans (State.readV_fresh s.cfg s.draws r)
  case fields => simp [State.loaded, State.fresh]

/-- Settles O41: the reset state is the fresh state of the default parameters. -/
theorem resetLeavesTheListedValues : Obligations.ResetLeavesTheListedValues := by
  refine ⟨fun r => State.readV_fresh _ _ r, rfl, rfl, rfl, rfl, rfl, rfl, rfl, rfl, fun k => Display.cell_blank k,
    fun a ha => ?_, rfl, rfl, rfl, rfl⟩
  refine (State.readByte_fresh _ _ ha).trans ?_
  split
  case isTrue h => exact resetByte_of_lt _ h
  case isFalse h => exact resetByte_of_ge _ (Nat.le_of_not_lt h)

/-! ## Faults and MODE over all operations (R180, R189, R31) -/

theorem State.eq_takeFault_of_mode {s t : State} {f g : CoreFault} (ht : t = s.takeFault g) (hm : t.mode = .faulted f) :
    t = s.takeFault f := by
  subst ht; cases hm; rfl

/-- A step that ends in `Faulted` has taken a fault and done nothing else. -/
theorem step_to_faulted {s t : State} {f : CoreFault} (h : step s = .next t) (hf : t.mode = .faulted f) :
    t = s.takeFault f := by
  rcases step_cases s with ⟨_, -, hstep⟩ | ⟨-, hstep⟩ | ⟨-, -, hstep⟩ | ⟨i, u, hm, -, he, hstep⟩
  · cases hstep.symm.trans h
  · cases hstep.symm.trans h; exact State.eq_takeFault_of_mode rfl hf
  · cases hstep.symm.trans h; exact State.eq_takeFault_of_mode rfl hf
  · obtain rfl : s.commit u = t := by cases hstep.symm.trans h; rfl
    rcases commit_cases hm he with ⟨hrun, hc⟩ | ⟨x, -, hu, hc⟩ | ⟨-, -, hc⟩ | ⟨a, -, -, hc⟩
    · rw [hc] at hf; cases hrun.symm.trans hf
    · rw [hc, hu] at hf; cases hf
    · exact State.eq_takeFault_of_mode hc hf
    · exact State.eq_takeFault_of_mode hc hf

theorem deliverKey_to_faulted {k : Nat} {s t : State} {f : CoreFault} (h : deliverKey k s = .next t)
    (hf : t.mode = .faulted f) : t = s.takeFault f := by
  rcases deliverKey_cases h with ⟨-, ht⟩ | ⟨-, -, rfl⟩ | ⟨-, -, ht⟩
  · exact State.eq_takeFault_of_mode ht hf
  · cases hf
  · exact State.eq_takeFault_of_mode ht hf

theorem State.loaded_mode (cfg : Config) (draws : Nat) (program : List Byte) :
    (State.loaded cfg draws program).mode = .running :=
  State.writeBytes_mode ..

theorem load_to_faulted {p : List Byte} {s t : State} {f : CoreFault} (h : load p s = .next t)
    (hf : t.mode = .faulted f) : t = s.takeFault f := by
  rcases load_cases h with ⟨-, rfl⟩ | ⟨-, ht⟩
  · cases (State.loaded_mode ..).symm.trans hf
  · exact State.eq_takeFault_of_mode ht hf

theorem apply_of_faulted {op : HostOp} {s t : State} {f : CoreFault} (hs : s.mode = .faulted f)
    (h : op.apply s = .next t) : t.mode = .faulted f ∨ ∃ p, op = .load p := by
  cases op with
  | load p => exact .inr ⟨p, rfl⟩
  | step => cases (step_faulted hs).symm.trans h
  | deliverKey k => cases (deliverKey_faulted hs k).symm.trans h
  | setKbd m => cases h; exact .inl hs
  | soundTick => obtain rfl := soundTick_next h; exact .inl hs

/-- Settles O43, by the three operations that can fault; in `Faulted` two have no transition and two leave MODE alone. -/
theorem faultsCommitNothingUntilLoad : Obligations.FaultsCommitNothingUntilLoad := by
  refine ⟨fun s t f op hop h hf => ?_, fun s t f op => apply_of_faulted⟩
  rcases hop with rfl | ⟨k, rfl⟩ | ⟨p, rfl⟩
  · exact step_to_faulted h hf
  · exact deliverKey_to_faulted h hf
  · exact load_to_faulted h hf

/-- Settles O44, by what each operation can do. -/
theorem modeChangesOnlyAsListed : Obligations.ModeChangesOnlyAsListed := by
  intro s t op h
  cases op with
  | setKbd m => cases h; exact .inl rfl
  | soundTick => obtain rfl := soundTick_next h; exact .inl rfl
  | load p =>
    rcases load_cases h with ⟨-, rfl⟩ | ⟨-, ht⟩
    · exact .inr (.inr (.inr (.inr ⟨State.loaded_mode .., p, rfl⟩)))
    · exact .inr (.inr (.inr (.inl ⟨_, ht⟩)))
  | deliverKey k =>
    rcases deliverKey_cases h with ⟨-, ht⟩ | ⟨hm, hk, rfl⟩ | ⟨-, -, ht⟩
    · exact .inr (.inr (.inr (.inl ⟨_, ht⟩)))
    · exact .inr (.inr (.inl ⟨hm, rfl, k, hk, rfl⟩))
    · exact .inr (.inr (.inr (.inl ⟨_, ht⟩)))
  | step =>
    rcases step_cases s with ⟨_, -, hstep⟩ | ⟨-, hstep⟩ | ⟨-, -, hstep⟩ | ⟨i, u, hm, hd, he, hstep⟩
    · cases hstep.symm.trans h
    · cases hstep.symm.trans h; exact .inr (.inr (.inr (.inl ⟨_, rfl⟩)))
    · cases hstep.symm.trans h; exact .inr (.inr (.inr (.inl ⟨_, rfl⟩)))
    · obtain rfl : s.commit u = t := by cases hstep.symm.trans h; rfl
      rcases commit_cases hm he with ⟨hrun, hc⟩ | ⟨x, rfl, rfl, hc⟩ | ⟨-, -, hc⟩ | ⟨a, -, -, hc⟩
      · exact .inl (by rw [hc]; exact hrun.trans hm.symm)
      · exact .inr (.inl ⟨hm, by rw [hc], rfl, by rw [hc]; exact hd⟩)
      · exact .inr (.inr (.inr (.inl ⟨_, hc⟩)))
      · exact .inr (.inr (.inr (.inl ⟨_, hc⟩)))

end Sys2Proof.Machine
end

section
/-! PROOFS. The invariant (10_state.md section 7, 60_exceptions.md R180): the parts determine the state, and every operation
keeps `State.Inv`. -/

namespace Sys2Proof.Machine

/-- Two canonical memories that read alike at every address of the machine are one list. -/
theorem State.mem_eq_of_readByte {s t : State} (hs : s.MemWf) (ht : t.MemWf) (hcfg : t.cfg = s.cfg)
    (hread : ∀ a, t.readByte a = s.readByte a) : t.mem = s.mem := by
  unfold State.MemWf at ht
  rw [hcfg] at ht
  refine Memory.eq_of_read_eq ht hs fun a => ?_
  rcases Nat.lt_or_ge a 4096 with ha | ha
  · have hbyte := hread a
    unfold State.readByte at hbyte
    rwa [hcfg, reduceAddr_of_lt ha] at hbyte
  · simp only [Memory.read, Memory.lookup_none_of_ge ht ha, Memory.lookup_none_of_ge hs ha]

theorem State.v_eq_of_readV {s t : State} (h : ∀ r, t.readV r = s.readV r) : t.v = s.v := by
  apply Vector.ext
  intro j hj
  have hr := h (BitVec.ofNatLT j hj)
  exact hr

/-- Settles O48: each field is read by its parts; memory by `mem_eq_of_readByte`, the display by `Display.ext_cell`. -/
theorem stateIsDeterminedByItsParts : Obligations.StateIsDeterminedByItsParts := by
  intro s t hs ht h
  have same (p : Part) : p.same s t := h p id
  have hv := State.v_eq_of_readV fun r => same (.v r)
  have hmem := State.mem_eq_of_readByte hs ht (same .cfg) fun a => same (.byte a)
  have hdisp := Display.ext_cell fun k => same (.cell k)
  cases s
  cases t
  rw [State.mk.injEq]
  exact ⟨same .cfg, hv, same .pc, same .i, same .dt, same .st, same .stack, hmem, hdisp, same .kbd, same .mode,
    same .waitDst, same .draws⟩

/-! ## What an instruction keeps -/

theorem exec_cfg {i : Instr} {s t : State} (h : exec i s = .next t) : t.cfg = s.cfg :=
  exec_onlyChanges_mayWrite h .cfg id

/-- An instruction reaches memory by runs of byte writes only. -/
theorem exec_mem {i : Instr} {s t : State} (h : exec i s = .next t) :
    t.mem = s.mem ∨ ∃ a bs, t = s.writeBytes a bs := by
  cases i with
  | ldB x => cases h; exact .inr ⟨_, _, rfl⟩
  | ldMemStore x => cases h; exact .inr ⟨_, _, rfl⟩
  | seImm | sneImm | seReg | sneReg | skp | sknp => cases h; exact .inl (State.skipIf_mem ..)
  | addReg | sub | shr | subn | shl => cases h; exact .inl (State.writeFlagged_mem ..)
  | ldMemLoad x => cases h; exact .inl (State.loadRegs_mem ..)
  | ret =>
    cases hs : s.stack with
    | nil => cases (exec_ret_empty hs).symm.trans h; exact .inl rfl
    | cons a rest => cases (exec_ret_nonempty hs).symm.trans h; exact .inl rfl
  | call a =>
    by_cases hs : s.cfg.stackDepth = some s.stack.length
    · cases (exec_call_full a hs).symm.trans h; exact .inl rfl
    · cases (exec_call_notFull a hs).symm.trans h; exact .inl rfl
  | cls | jp | ldImm | addImm | ldReg | orReg | andReg | xorReg | ldI | jpV0 | rnd | drw | ldVxDt | ldVxK | ldDtVx
  | ldStVx | addI | ldF => cases h; exact .inl rfl

theorem exec_memWf {i : Instr} {s t : State} (h : exec i s = .next t) (hs : s.MemWf) : t.MemWf := by
  rcases exec_mem h with hmem | ⟨a, bs, rfl⟩
  · exact State.memWf_congr (exec_cfg h) hmem hs
  · exact State.memWf_writeBytes hs a bs

/-- Only a call lengthens the stack, and only when it is not full (R27). -/
theorem exec_stackBounded {i : Instr} {s t : State} (h : exec i s = .next t) (hs : s.StackBounded) :
    t.StackBounded := by
  intro d hd
  rw [exec_cfg h] at hd
  have hbound := hs d hd
  by_cases hstack : mayWrite i .stack
  case neg => rwa [exec_onlyChanges_mayWrite h .stack hstack]
  case pos =>
    rcases hstack with rfl | ⟨a, rfl⟩
    · cases hst : s.stack with
      | nil => cases (exec_ret_empty hst).symm.trans h; exact hbound
      | cons a rest =>
        cases (exec_ret_nonempty hst).symm.trans h
        rw [hst] at hbound
        exact Nat.le_of_succ_le hbound
    · by_cases hfull : s.cfg.stackDepth = some s.stack.length
      · cases (exec_call_full a hfull).symm.trans h; exact hbound
      · cases (exec_call_notFull a hfull).symm.trans h
        have hne : s.stack.length ≠ d := fun heq => hfull (heq ▸ hd)
        exact Nat.lt_of_le_of_ne hbound hne

/-! ## MODE and its cause -/

theorem State.modeConsistent_of_running {s : State} (h : s.mode = .running) : s.ModeConsistent := by
  unfold State.ModeConsistent; rw [h]; trivial

theorem State.modeConsistent_awaiting_iff {s : State} (h : s.mode = .awaitingKey) :
    s.ModeConsistent ↔ s.decodeNext = .instr (.ldVxK s.waitDst) := by
  unfold State.ModeConsistent; rw [h]

/-- A fault keeps memory and stack, so what is left of the invariant is its cause. -/
theorem State.Inv.takeFault {s : State} (h : s.Inv) {f : CoreFault} (hcause : (s.takeFault f).ModeConsistent) :
    (s.takeFault f).Inv :=
  ⟨h.mem, h.stack, hcause⟩

/-! ## Steps -/

/-- The working copy keeps memory and stack; the rest is MODE. -/
theorem State.Inv.commit {i : Instr} {s t : State} (hs : s.Inv) (he : exec i s.beginStep = .next t)
    (hmode : { t with draws := s.draws + 1 }.ModeConsistent) : { t with draws := s.draws + 1 }.Inv :=
  have hmem : t.MemWf := exec_memWf (s := s.beginStep) he hs.mem
  have hstack : t.StackBounded := exec_stackBounded (s := s.beginStep) he hs.stack
  ⟨hmem, hstack, hmode⟩

theorem step_inv {s t : State} (hs : s.Inv) (h : step s = .next t) : t.Inv := by
  rcases step_cases s with ⟨_, -, hstep⟩ | ⟨hm, hstep⟩ | ⟨-, hd, hstep⟩ | ⟨i, u, hm, hd, he, hstep⟩
  · cases hstep.symm.trans h
  · cases hstep.symm.trans h
    exact hs.takeFault ((State.modeConsistent_awaiting_iff hm).1 hs.mode)
  · cases hstep.symm.trans h
    exact hs.takeFault ⟨rfl, hd⟩
  · obtain rfl : s.commit u = t := by cases hstep.symm.trans h; rfl
    rcases commit_cases hm he with ⟨hrun, hc⟩ | ⟨x, rfl, rfl, hc⟩ | ⟨rfl, hempty, hc⟩ | ⟨a, rfl, hfull, hc⟩
    all_goals rw [hc]
    · exact hs.commit he (State.modeConsistent_of_running hrun)
    · refine hs.commit he ((State.modeConsistent_awaiting_iff rfl).2 ?_)
      have hpc : s.pc + 2#16 - 2#16 = s.pc := BitVec.add_sub_cancel ..
      rw [← hd]
      exact State.decodeNext_congr rfl rfl hpc
    · exact hs.takeFault ⟨hd, hempty⟩
    · exact hs.takeFault ⟨⟨a, hd⟩, hfull⟩

/-- Settles O55, by the ways a step answers: a fault stands at its cause, a wait-key at itself, and every other commit keeps
memory and stack. -/
theorem stepKeepsInvariant : Obligations.StepKeepsInvariant := fun _ _ => step_inv

/-! ## Host operations -/

theorem State.inv_loaded (cfg : Config) (draws : Nat) (program : List Byte) : (State.loaded cfg draws program).Inv where
  mem := State.memWf_writeBytes (s := State.fresh cfg draws) rfl programBase program
  stack := fun d _ => by simp [State.loaded, State.fresh]
  mode := State.modeConsistent_of_running (State.loaded_mode ..)

theorem load_inv {p : List Byte} {s t : State} (hs : s.Inv) (h : load p s = .next t) : t.Inv := by
  rcases load_cases h with ⟨-, rfl⟩ | ⟨hp, rfl⟩
  · exact State.inv_loaded ..
  · exact hs.takeFault hp

theorem deliverKey_inv {k : Nat} {s t : State} (hs : s.Inv) (h : deliverKey k s = .next t) : t.Inv := by
  rcases deliverKey_cases h with ⟨-, rfl⟩ | ⟨-, -, rfl⟩ | ⟨hm, hk, rfl⟩
  · exact hs.takeFault trivial
  · exact ⟨hs.mem, hs.stack, State.modeConsistent_of_running rfl⟩
  · exact hs.takeFault ⟨hk, (State.modeConsistent_awaiting_iff hm).1 hs.mode⟩

theorem apply_inv {op : HostOp} {s t : State} (hs : s.Inv) (h : op.apply s = .next t) : t.Inv := by
  cases op with
  | load p => exact load_inv hs h
  | step => exact step_inv hs h
  | deliverKey k => exact deliverKey_inv hs h
  | setKbd m => cases h; exact ⟨hs.mem, hs.stack, hs.mode⟩
  | soundTick => obtain rfl := soundTick_next h; exact ⟨hs.mem, hs.stack, hs.mode⟩

/-- Settles O56, operation by operation. -/
theorem hostOperationsKeepInvariant : Obligations.HostOperationsKeepInvariant := fun _ _ _ => apply_inv

/-- Settles O54: the reset state is the state after the load of the empty program. -/
theorem resetMeetsInvariant : Obligations.ResetMeetsInvariant := State.inv_loaded Config.default 0 []

/-! ## Runs -/

theorem State.commit_cfg {i : Instr} {s t : State} (he : exec i s.beginStep = .next t) : (s.commit t).cfg = s.cfg := by
  have hcfg : t.cfg = s.cfg := exec_cfg (s := s.beginStep) he
  unfold State.commit
  split
  · rfl
  · exact hcfg
  · exact hcfg

theorem apply_cfg {op : HostOp} {s t : State} (h : op.apply s = .next t) : t.cfg = s.cfg := by
  cases op with
  | load p =>
    rcases load_cases h with ⟨-, rfl⟩ | ⟨-, rfl⟩
    · exact State.writeBytes_cfg ..
    · rfl
  | step =>
    rcases step_cases s with ⟨_, -, hstep⟩ | ⟨-, hstep⟩ | ⟨-, -, hstep⟩ | ⟨i, u, -, -, he, hstep⟩
    · cases hstep.symm.trans h
    · cases hstep.symm.trans h; rfl
    · cases hstep.symm.trans h; rfl
    · cases hstep.symm.trans h; exact State.commit_cfg he
  | deliverKey k => rcases deliverKey_cases h with ⟨-, rfl⟩ | ⟨-, -, rfl⟩ | ⟨-, -, rfl⟩ <;> rfl
  | setKbd m => cases h; rfl
  | soundTick => obtain rfl := soundTick_next h; rfl

/-- The ways an operation answers: only `step` and `deliverKey` can have no transition, in `Faulted`, and only `soundTick`
can be refused (R180, R195). -/
theorem apply_answers (op : HostOp) (s : State) :
    (∃ t, op.apply s = .next t) ∨ (∃ f, op.apply s = .fault (.stopped f)) ∨
    (op.apply s = .refused .noSoundTick ∧ s.cfg.soundTickMode = .core) := by
  cases op with
  | load p =>
    rcases Nat.lt_or_ge 3584 p.length with hp | hp
    · exact .inl ⟨_, load_tooLarge hp s⟩
    · exact .inl ⟨_, load_fits hp s⟩
  | step =>
    rcases step_cases s with ⟨f, -, hstep⟩ | ⟨-, hstep⟩ | ⟨-, -, hstep⟩ | ⟨i, u, -, -, -, hstep⟩
    · exact .inr (.inl ⟨f, hstep⟩)
    all_goals exact .inl ⟨_, hstep⟩
  | deliverKey k =>
    cases hm : s.mode with
    | running => exact .inl ⟨_, deliverKey_running hm k⟩
    | awaitingKey =>
      rcases Nat.lt_or_ge 15 k with hk | hk
      · exact .inl ⟨_, deliverKey_awaiting_outOfRange hm hk⟩
      · exact .inl ⟨_, deliverKey_awaiting_inRange hm hk⟩
    | faulted f => exact .inr (.inl ⟨f, deliverKey_faulted hm k⟩)
  | setKbd m => exact .inl ⟨_, rfl⟩
  | soundTick =>
    cases hm : s.cfg.soundTickMode with
    | core => exact .inr (.inr ⟨soundTick_core hm, rfl⟩)
    | external => exact .inl ⟨_, soundTick_external hm⟩

/-- What a run of a machine with parameters `cfg` may answer. -/
def RunAnswer (cfg : Config) : Outcome → Prop
  | .next t => t.Inv ∧ t.cfg = cfg
  | .fault r => ∃ f, r = .stopped f
  | .refused r => r = .noSoundTick ∧ cfg.soundTickMode = .core

theorem runOps_answer (ops : List HostOp) {s : State} (hs : s.Inv) : RunAnswer s.cfg (runOps ops s) := by
  induction ops generalizing s with
  | nil => exact ⟨hs, rfl⟩
  | cons op ops ih =>
    unfold runOps
    rcases apply_answers op s with ⟨t, ht⟩ | ⟨f, hf⟩ | ⟨hr, hcore⟩
    · rw [ht, ← apply_cfg ht]; exact ih (apply_inv hs ht)
    · rw [hf]; exact ⟨f, rfl⟩
    · rw [hr]; exact ⟨rfl, hcore⟩

theorem applyUnloaded_load_next {p : List Byte} {cfg : Config} {s : State}
    (h : HostOp.applyUnloaded (.load p) cfg = .next s) : s = State.loaded cfg 0 p := by
  simp only [HostOp.applyUnloaded] at h
  split at h
  case isTrue => cases h; rfl
  case isFalse => cases h

/-- Settles O57: the load establishes the invariant, and the run keeps it operation by operation. -/
theorem everyRunFromLoadMeetsInvariant : Obligations.EveryRunFromLoadMeetsInvariant := by
  intro cfg program ops s h
  obtain rfl := applyUnloaded_load_next h
  have hcfg : (State.loaded cfg 0 program).cfg = cfg := State.writeBytes_cfg ..
  have hrun := runOps_answer ops (State.inv_loaded cfg 0 program)
  rw [hcfg] at hrun
  refine ⟨fun t ht => ?_, fun r hr => ?_, fun r hr => ?_⟩
  · rwa [ht] at hrun
  · rwa [hr] at hrun
  · rwa [hr] at hrun

end Sys2Proof.Machine
end
